-- ==== Sys2Proof/Word.lean ====
section
/-! DEFINITION. The word types of the block: every value of the hardware is an unsigned integer of a stated width
(00_scope.md R6, R7; the widths of R5), so each is a bit vector of that width, bit 0 the least significant. -/

namespace Sys2Proof

/-- A byte: a memory cell, a general register, a timer (R5 REG_WIDTH, TIMER_WIDTH). -/
abbrev Byte := BitVec 8

/-- A 16-bit word: an instruction word, PC, I, a return address (R5 INSN_WIDTH, PC_WIDTH, I_WIDTH, STACK_WIDTH). -/
abbrev Word := BitVec 16

/-- A register number, the field `x` or `y` of an instruction: 0 to 15 (R91, R93). -/
abbrev RegNum := BitVec 4

/-- The field `n`, a count 0 to 15 (R91, R93). -/
abbrev Nibble := BitVec 4

/-- The field `nnn`, an address 0 to 4095 (R91, R93). -/
abbrev Addr := BitVec 12

/-- A logical key code, 0 to 15 (R32, R259). -/
abbrev Key := BitVec 4

/-- One row of the display: 64 pixels, bit 63 is column 0, the leftmost (R31). -/
abbrev PixelRow := BitVec 64

end Sys2Proof
end

