-- ==== Sys2Proof/Syntax.lean ====
section
/-! DEFINITION. The 34 instructions, one constructor per row of spec/opcode_table.json in its order (30_encoding.md
R95), with the fields its format names (R91, R92). Each field has the width of its slice of the word, so every value of
a field is one the encoding admits. -/

namespace Sys2Proof

/-- An instruction of the hardware (30_encoding.md R95; there are 34 and no more, R97). -/
inductive Instr where
  /-- CLS, 00E0 (R170): clear the display. -/
  | cls
  /-- RET, 00EE (R141): return from a subroutine. -/
  | ret
  /-- JP, 1nnn (R142): jump to `nnn`. -/
  | jp (nnn : Addr)
  /-- CALL, 2nnn (R143): call the subroutine at `nnn`. -/
  | call (nnn : Addr)
  /-- SE_IMM, 3xkk (R144): skip if Vx = kk. -/
  | seImm (x : RegNum) (kk : Byte)
  /-- SNE_IMM, 4xkk (R145): skip if Vx ≠ kk. -/
  | sneImm (x : RegNum) (kk : Byte)
  /-- SE_REG, 5xy0 (R146): skip if Vx = Vy. -/
  | seReg (x : RegNum) (y : RegNum)
  /-- LD_IMM, 6xkk (R160): Vx := kk. -/
  | ldImm (x : RegNum) (kk : Byte)
  /-- ADD_IMM, 7xkk (R161): Vx := Vx + kk, no flag. -/
  | addImm (x : RegNum) (kk : Byte)
  /-- LD_REG, 8xy0 (R181): Vx := Vy. -/
  | ldReg (x : RegNum) (y : RegNum)
  /-- OR, 8xy1 (R182): Vx := Vx OR Vy. -/
  | or (x : RegNum) (y : RegNum)
  /-- AND, 8xy2 (R183): Vx := Vx AND Vy. -/
  | and (x : RegNum) (y : RegNum)
  /-- XOR, 8xy3 (R184): Vx := Vx XOR Vy. -/
  | xor (x : RegNum) (y : RegNum)
  /-- ADD_REG, 8xy4 (R185): Vx := Vx + Vy, VF := carry. -/
  | addReg (x : RegNum) (y : RegNum)
  /-- SUB, 8xy5 (R186): Vx := Vx - Vy, VF := no borrow. -/
  | sub (x : RegNum) (y : RegNum)
  /-- SHR, 8xy6 (R187): Vx := Vx >> 1, VF := bit shifted out; `y` is ignored (R99). -/
  | shr (x : RegNum) (y : RegNum)
  /-- SUBN, 8xy7 (R188): Vx := Vy - Vx, VF := no borrow. -/
  | subn (x : RegNum) (y : RegNum)
  /-- SHL, 8xyE (R189): Vx := Vx << 1, VF := bit shifted out; `y` is ignored (R99). -/
  | shl (x : RegNum) (y : RegNum)
  /-- SNE_REG, 9xy0 (R147): skip if Vx ≠ Vy. -/
  | sneReg (x : RegNum) (y : RegNum)
  /-- LD_I, Annn (R162): I := nnn. -/
  | ldI (nnn : Addr)
  /-- JP_V0, Bnnn (R148): jump to V0 + nnn. -/
  | jpV0 (nnn : Addr)
  /-- RND, Cxkk (R163): Vx := RAND AND kk. -/
  | rnd (x : RegNum) (kk : Byte)
  /-- DRW, Dxyn (R172): draw `n` sprite rows from I at column Vx, row Vy; VF := collision. -/
  | drw (x : RegNum) (y : RegNum) (n : Nibble)
  /-- SKP, Ex9E (R201): skip if the key named by Vx is held. -/
  | skp (x : RegNum)
  /-- SKNP, ExA1 (R202): skip if the key named by Vx is not held. -/
  | sknp (x : RegNum)
  /-- LD_VX_DT, Fx07 (R210): Vx := delay timer. -/
  | ldVxDt (x : RegNum)
  /-- LD_VX_K, Fx0A (R203): wait for a queued key, Vx := it. -/
  | ldVxK (x : RegNum)
  /-- LD_DT_VX, Fx15 (R211): delay timer := Vx. -/
  | ldDtVx (x : RegNum)
  /-- LD_ST_VX, Fx18 (R212): sound timer := Vx. -/
  | ldStVx (x : RegNum)
  /-- ADD_I, Fx1E (R220): I := I + Vx. -/
  | addI (x : RegNum)
  /-- LD_F, Fx29 (R221): I := address of the digit sprite Vx. -/
  | ldF (x : RegNum)
  /-- LD_B, Fx33 (R222): decimal digits of Vx to MEM[I], [I+1], [I+2]. -/
  | ldB (x : RegNum)
  /-- LD_MEM_VX, Fx55 (R223): V0..Vx to MEM from I. -/
  | ldMemVx (x : RegNum)
  /-- LD_VX_MEM, Fx65 (R224): V0..Vx from MEM at I. -/
  | ldVxMem (x : RegNum)
deriving DecidableEq, Repr

/-- The mnemonic of the instruction's row, letter for letter (30_encoding.md R95). -/
def Instr.mnemonic : Instr → String
  | .cls => "CLS"
  | .ret => "RET"
  | .jp _ => "JP"
  | .call _ => "CALL"
  | .seImm _ _ => "SE_IMM"
  | .sneImm _ _ => "SNE_IMM"
  | .seReg _ _ => "SE_REG"
  | .ldImm _ _ => "LD_IMM"
  | .addImm _ _ => "ADD_IMM"
  | .ldReg _ _ => "LD_REG"
  | .or _ _ => "OR"
  | .and _ _ => "AND"
  | .xor _ _ => "XOR"
  | .addReg _ _ => "ADD_REG"
  | .sub _ _ => "SUB"
  | .shr _ _ => "SHR"
  | .subn _ _ => "SUBN"
  | .shl _ _ => "SHL"
  | .sneReg _ _ => "SNE_REG"
  | .ldI _ => "LD_I"
  | .jpV0 _ => "JP_V0"
  | .rnd _ _ => "RND"
  | .drw _ _ _ => "DRW"
  | .skp _ => "SKP"
  | .sknp _ => "SKNP"
  | .ldVxDt _ => "LD_VX_DT"
  | .ldVxK _ => "LD_VX_K"
  | .ldDtVx _ => "LD_DT_VX"
  | .ldStVx _ => "LD_ST_VX"
  | .addI _ => "ADD_I"
  | .ldF _ => "LD_F"
  | .ldB _ => "LD_B"
  | .ldMemVx _ => "LD_MEM_VX"
  | .ldVxMem _ => "LD_VX_MEM"

end Sys2Proof
end

