-- ==== Sys2Proof/WellFormed.lean ====
section
/-! DEFINITION. Which words are instructions: the opcode map of 30_encoding.md R95 as a table of rows, each a pattern under
the mask of its format (R92), and the check that a word matches one (R94, R96). A term of Instr needs no check of its own:
its fields carry their widths in their types (R93). -/

namespace Sys2Proof

/-- The six formats of an instruction word (30_encoding.md R92). -/
inductive Format where
  /-- no field: the whole word is opcode -/
  | e
  /-- address `nnn` -/
  | a
  /-- register `x`, immediate `kk` -/
  | ri
  /-- registers `x`, `y`, count `n` -/
  | rrn
  /-- registers `x`, `y`, sub-opcode in the low nibble -/
  | rr
  /-- register `x`, sub-opcode in the low byte -/
  | rx
deriving DecidableEq, Repr

/-- The opcode bits of a format (30_encoding.md R92, the dispatch masks of R94). -/
def Format.mask : Format → Word
  | .e => 0xFFFF
  | .a => 0xF000
  | .ri => 0xF000
  | .rrn => 0xF000
  | .rr => 0xF00F
  | .rx => 0xF0FF

/-- A row of the opcode map (30_encoding.md R95). -/
structure OpcodeRow where
  mnemonic : String
  format : Format
  /-- the column `match` of R95 -/
  pattern : Word
deriving DecidableEq, Repr

/-- A word `w` is the instruction of a row exactly when `w & mask = match` (30_encoding.md R95). -/
def OpcodeRow.accepts (r : OpcodeRow) (w : Word) : Bool := w &&& r.format.mask == r.pattern

/-- The control, immediate and display rows of tiers 1 and 2 (30_encoding.md R94, R95). -/
def opcodeRowsByTopNibble : List OpcodeRow :=
  [ ⟨"CLS", .e, 0x00E0⟩,
    ⟨"RET", .e, 0x00EE⟩,
    ⟨"JP", .a, 0x1000⟩,
    ⟨"CALL", .a, 0x2000⟩,
    ⟨"SE_IMM", .ri, 0x3000⟩,
    ⟨"SNE_IMM", .ri, 0x4000⟩,
    ⟨"LD_IMM", .ri, 0x6000⟩,
    ⟨"ADD_IMM", .ri, 0x7000⟩,
    ⟨"LD_I", .a, 0xA000⟩,
    ⟨"JP_V0", .a, 0xB000⟩,
    ⟨"RND", .ri, 0xC000⟩,
    ⟨"DRW", .rrn, 0xD000⟩ ]

/-- The rows of tier 3 (30_encoding.md R94, R95). -/
def opcodeRowsRegReg : List OpcodeRow :=
  [ ⟨"SE_REG", .rr, 0x5000⟩,
    ⟨"LD_REG", .rr, 0x8000⟩,
    ⟨"OR", .rr, 0x8001⟩,
    ⟨"AND", .rr, 0x8002⟩,
    ⟨"XOR", .rr, 0x8003⟩,
    ⟨"ADD_REG", .rr, 0x8004⟩,
    ⟨"SUB", .rr, 0x8005⟩,
    ⟨"SHR", .rr, 0x8006⟩,
    ⟨"SUBN", .rr, 0x8007⟩,
    ⟨"SHL", .rr, 0x800E⟩,
    ⟨"SNE_REG", .rr, 0x9000⟩ ]

/-- The rows of tier 4 (30_encoding.md R94, R95). -/
def opcodeRowsReg : List OpcodeRow :=
  [ ⟨"SKP", .rx, 0xE09E⟩,
    ⟨"SKNP", .rx, 0xE0A1⟩,
    ⟨"LD_VX_DT", .rx, 0xF007⟩,
    ⟨"LD_VX_K", .rx, 0xF00A⟩,
    ⟨"LD_DT_VX", .rx, 0xF015⟩,
    ⟨"LD_ST_VX", .rx, 0xF018⟩,
    ⟨"ADD_I", .rx, 0xF01E⟩,
    ⟨"LD_F", .rx, 0xF029⟩,
    ⟨"LD_B", .rx, 0xF033⟩,
    ⟨"LD_MEM_VX", .rx, 0xF055⟩,
    ⟨"LD_VX_MEM", .rx, 0xF065⟩ ]

/-- The opcode map: 34 rows (30_encoding.md R95, R97). -/
def opcodeTable : List OpcodeRow := opcodeRowsByTopNibble ++ opcodeRowsRegReg ++ opcodeRowsReg

/-- A word is well formed when it is an instruction: it matches a row of the map. Every other word is illegal and raises
DecodeFault (30_encoding.md R96). -/
def wordWellFormed (w : Word) : Bool := opcodeTable.any (fun r => r.accepts w)

end Sys2Proof
end

