-- ==== Sys2Proof/Decode.lean ====
section
/-! DEFINITION. Decoding an instruction word and, after it, encoding an instruction (30_encoding.md). Decoding looks at
nothing but the word (R98) and has two answers, one of the 34 instructions or none (R94, R96); on bytes it is total and
rejects by name. -/

namespace Sys2Proof

/-! ### The fields of a word (30_encoding.md R91) -/

/-- `op = w[15:12]`. -/
def fieldOp (w : Word) : BitVec 4 := w.extractLsb' 12 4

/-- `x = w[11:8]`. -/
def fieldX (w : Word) : RegNum := w.extractLsb' 8 4

/-- `y = w[7:4]`. -/
def fieldY (w : Word) : RegNum := w.extractLsb' 4 4

/-- `n = w[3:0]`. -/
def fieldN (w : Word) : Nibble := w.extractLsb' 0 4

/-- `kk = w[7:0]`. -/
def fieldKk (w : Word) : Byte := w.extractLsb' 0 8

/-- `nnn = w[11:0]`. -/
def fieldNnn (w : Word) : Addr := w.extractLsb' 0 12

/-! ### The decoder (30_encoding.md R94, R95) -/

/-- The words with top nibble 8, told apart by the low nibble (R95 rows 10 to 18). -/
def decodeAlu (x y : RegNum) (n : Nibble) : Option Instr :=
  match n with
  | 0x0#4 => some (.ldReg x y)
  | 0x1#4 => some (.or x y)
  | 0x2#4 => some (.and x y)
  | 0x3#4 => some (.xor x y)
  | 0x4#4 => some (.addReg x y)
  | 0x5#4 => some (.sub x y)
  | 0x6#4 => some (.shr x y)
  | 0x7#4 => some (.subn x y)
  | 0xE#4 => some (.shl x y)
  | _ => none

/-- The words with top nibble E, told apart by the low byte (R95 rows 24 and 25). -/
def decodeKey (x : RegNum) (kk : Byte) : Option Instr :=
  match kk with
  | 0x9E#8 => some (.skp x)
  | 0xA1#8 => some (.sknp x)
  | _ => none

/-- The words with top nibble F, told apart by the low byte (R95 rows 26 to 34). -/
def decodeMisc (x : RegNum) (kk : Byte) : Option Instr :=
  match kk with
  | 0x07#8 => some (.ldVxDt x)
  | 0x0A#8 => some (.ldVxK x)
  | 0x15#8 => some (.ldDtVx x)
  | 0x18#8 => some (.ldStVx x)
  | 0x1E#8 => some (.addI x)
  | 0x29#8 => some (.ldF x)
  | 0x33#8 => some (.ldB x)
  | 0x55#8 => some (.ldMemVx x)
  | 0x65#8 => some (.ldVxMem x)
  | _ => none

/-- `Decode(w)`: the instruction of the one row of the opcode map that `w` matches, or none (R94, R95, R96). -/
def decode (w : Word) : Option Instr :=
  match fieldOp w with
  | 0x0#4 => if w = 0x00E0#16 then some .cls else if w = 0x00EE#16 then some .ret else none
  | 0x1#4 => some (.jp (fieldNnn w))
  | 0x2#4 => some (.call (fieldNnn w))
  | 0x3#4 => some (.seImm (fieldX w) (fieldKk w))
  | 0x4#4 => some (.sneImm (fieldX w) (fieldKk w))
  | 0x5#4 => if fieldN w = 0x0#4 then some (.seReg (fieldX w) (fieldY w)) else none
  | 0x6#4 => some (.ldImm (fieldX w) (fieldKk w))
  | 0x7#4 => some (.addImm (fieldX w) (fieldKk w))
  | 0x8#4 => decodeAlu (fieldX w) (fieldY w) (fieldN w)
  | 0x9#4 => if fieldN w = 0x0#4 then some (.sneReg (fieldX w) (fieldY w)) else none
  | 0xA#4 => some (.ldI (fieldNnn w))
  | 0xB#4 => some (.jpV0 (fieldNnn w))
  | 0xC#4 => some (.rnd (fieldX w) (fieldKk w))
  | 0xD#4 => some (.drw (fieldX w) (fieldY w) (fieldN w))
  | 0xE#4 => decodeKey (fieldX w) (fieldKk w)
  | 0xF#4 => decodeMisc (fieldX w) (fieldKk w)
  | _ => none

/-! ### Decoding bytes -/

/-- Why bytes hold no instruction. -/
inductive DecodeError where
  /-- fewer than the two bytes every instruction has (R90) -/
  | truncated
  /-- the word matches no row of the opcode map (R96) -/
  | noInstruction (w : Word)
deriving DecidableEq, Repr

/-- The word at two consecutive bytes: big-endian, the first byte is `w[15:8]` (20_memory.md R64). -/
def wordOfBytes (hi lo : Byte) : Word := hi ++ lo

/-- The first instruction of a byte sequence and the bytes after it; total, and rejecting by name. -/
def decodeBytes : List Byte → Except DecodeError (Instr × List Byte)
  | hi :: lo :: rest =>
    match decode (wordOfBytes hi lo) with
    | some i => .ok (i, rest)
    | none => .error (.noInstruction (wordOfBytes hi lo))
  | _ => .error .truncated

/-! ### The encoder (30_encoding.md R95) -/

/-- The word of an instruction: its row's pattern with the fields in their slices (R91, R95). -/
def encode : Instr → Word
  | .cls => 0x00E0#16
  | .ret => 0x00EE#16
  | .jp nnn => 0x1#4 ++ nnn
  | .call nnn => 0x2#4 ++ nnn
  | .seImm x kk => 0x3#4 ++ x ++ kk
  | .sneImm x kk => 0x4#4 ++ x ++ kk
  | .seReg x y => 0x5#4 ++ x ++ y ++ 0x0#4
  | .ldImm x kk => 0x6#4 ++ x ++ kk
  | .addImm x kk => 0x7#4 ++ x ++ kk
  | .ldReg x y => 0x8#4 ++ x ++ y ++ 0x0#4
  | .or x y => 0x8#4 ++ x ++ y ++ 0x1#4
  | .and x y => 0x8#4 ++ x ++ y ++ 0x2#4
  | .xor x y => 0x8#4 ++ x ++ y ++ 0x3#4
  | .addReg x y => 0x8#4 ++ x ++ y ++ 0x4#4
  | .sub x y => 0x8#4 ++ x ++ y ++ 0x5#4
  | .shr x y => 0x8#4 ++ x ++ y ++ 0x6#4
  | .subn x y => 0x8#4 ++ x ++ y ++ 0x7#4
  | .shl x y => 0x8#4 ++ x ++ y ++ 0xE#4
  | .sneReg x y => 0x9#4 ++ x ++ y ++ 0x0#4
  | .ldI nnn => 0xA#4 ++ nnn
  | .jpV0 nnn => 0xB#4 ++ nnn
  | .rnd x kk => 0xC#4 ++ x ++ kk
  | .drw x y n => 0xD#4 ++ x ++ y ++ n
  | .skp x => 0xE#4 ++ x ++ 0x9E#8
  | .sknp x => 0xE#4 ++ x ++ 0xA1#8
  | .ldVxDt x => 0xF#4 ++ x ++ 0x07#8
  | .ldVxK x => 0xF#4 ++ x ++ 0x0A#8
  | .ldDtVx x => 0xF#4 ++ x ++ 0x15#8
  | .ldStVx x => 0xF#4 ++ x ++ 0x18#8
  | .addI x => 0xF#4 ++ x ++ 0x1E#8
  | .ldF x => 0xF#4 ++ x ++ 0x29#8
  | .ldB x => 0xF#4 ++ x ++ 0x33#8
  | .ldMemVx x => 0xF#4 ++ x ++ 0x55#8
  | .ldVxMem x => 0xF#4 ++ x ++ 0x65#8

/-- The two bytes of a word in memory order: the high byte first (20_memory.md R64). -/
def bytesOfWord (w : Word) : List Byte := [w.extractLsb' 8 8, w.extractLsb' 0 8]

/-- The bytes of an instruction in memory order (R90). -/
def encodeBytes (i : Instr) : List Byte := bytesOfWord (encode i)

/-! ### The host's numbering of an instruction's bits -/

/-- The bytes, in memory order, of the instruction whose bits are `w`, numbered as spec/opcode_table.json numbers them:
bit 0 is the least significant bit of the one word; bits from `nbits` up are 0. -/
def tableBytes (nbits w : Nat) : List Byte := bytesOfWord (BitVec.ofNat 16 (w % 2 ^ nbits))

/-- The instruction the decoder reads from an instruction whose bits are `w` (`none` where it refuses). -/
def decodeTableWord (nbits w : Nat) : Option Instr :=
  match decodeBytes (tableBytes nbits w) with
  | .ok (i, _) => some i
  | .error _ => none

end Sys2Proof
end

