-- ==== Sys2Proof/Config.lean ====
section
/-! DEFINITION. The sizes the hardware fixes (00_scope.md R5) and the free values: the two inputs of STEP, which the
surrounding system supplies under no law (R10, R34, D22). -/

namespace Sys2Proof.Config

/-- MEM_SIZE: addresses 0x000 to 0xFFF exist, no other (R5, R21). -/
def memSize : Nat := 4096

/-- PC_RESET: the program counter after RESET, the fixed entry point (R5, R281). -/
def pcReset : Word := 0x0200

/-- PC_MAX_FETCH: the largest PC that can be fetched from (R5, R122). -/
def pcMaxFetch : Nat := 4094

/-- FONT_STRIDE: bytes per digit sprite (R5, R221). -/
def fontStride : Nat := 5

/-- KEYS_HELD of the `k`-th STEP whose inputs the pending operations do not give: a FREE VALUE, any 16-bit value
(R10, R34, R200; log 1). DESIGN CHOICE; safe: nothing can be proved of it. -/
opaque freeKeysHeld : Nat → BitVec 16

/-- RAND of the `k`-th STEP whose inputs the pending operations do not give: a FREE VALUE, any byte (R10, R34, R163,
U19; log 1). DESIGN CHOICE; safe: nothing can be proved of it. -/
opaque freeRand : Nat → BitVec 8

end Sys2Proof.Config
end

