-- ==== Sys2Proof/Machine/State.lean ====
section
/-! DEFINITION. The state: Block holds the twelve items of 10_state.md R20 and nothing else, Surroundings what the model
says of the system around the block (INVENTORY.md, State). The block after RESET is 10_state.md R37. -/

namespace Sys2Proof.Machine

/-- MEM: the cells that differ from their content after RESET, addresses strictly rising (10_state.md R21). -/
abbrev Memory := List Host.Cell

/-- The register file: V0 to VF (10_state.md R24). -/
abbrev Regs := Vector Byte 16

/-- The cells of the call stack (10_state.md R28). -/
abbrev CallStack := Vector Word 16

/-- The framebuffer: 32 rows of 64 pixels (10_state.md R31). -/
abbrev FrameBuffer := Vector PixelRow 32

/-- FAULT_KIND: which of the five faults halted the block, if any (10_state.md R33, 60_exceptions.md R240). -/
inductive FaultKind where
  /-- 0: no fault so far -/
  | noFault
  /-- 1: the fetched word is no instruction (R242) -/
  | decodeFault
  /-- 2: CALL with 16 return addresses held (R243) -/
  | stackOverflow
  /-- 3: RET with no return address held (R244) -/
  | stackUnderflow
  /-- 4: PC above 4094 before the fetch (R245) -/
  | pcOutOfBounds
  /-- 5: a data access above address 4095, the spec's own fault (R246) -/
  | memoryOutOfBounds
deriving DecidableEq, Repr

/-- An operation of the surrounding system on the block (00_scope.md R9). -/
inductive Operation where
  /-- RESET (70_reset_and_hazards.md R280) -/
  | reset
  /-- LOAD(base, bytes) (60_exceptions.md R258) -/
  | load (base : Nat) (bytes : List Byte)
  /-- KEY_EVENT(k) (60_exceptions.md R259) -/
  | keyEvent (k : Key)
  /-- TICK (60_exceptions.md R255) -/
  | tick
  /-- STEP(KEYS_HELD, RAND) (40_execute_cycle.md R120) -/
  | step (keysHeld : BitVec 16) (rand : Byte)
deriving DecidableEq, Repr

/-- No step of this model ends in a fault of the host's kind: all five faults of the hardware are next states with the
fault record written (60_exceptions.md R241), and STEP on a halted block is a next state too (40_execute_cycle.md R121).
Raised by nobody; safe. -/
inductive Fault
deriving DecidableEq, Repr

/-- The reasons for a refusal. -/
inductive Refusal where
  /-- An instruction that has no meaning yet, by its mnemonic: raised by an arm of exec only, and by no arm of this model,
  since all 34 instructions have their meaning. Safe: the model stops where the hardware goes on. -/
  | notModelled (mnemonic : String)
deriving DecidableEq, Repr

/-- The state of the block: the twelve items of 10_state.md R20 and no other field. -/
structure Block where
  /-- MEM, 4096 bytes (R21) -/
  mem : Memory
  /-- V0 to VF (R24) -/
  v : Regs
  /-- I, the address register (R26) -/
  i : Word
  /-- PC (R27) -/
  pc : Word
  /-- STACK, the cells of the call stack (R28) -/
  stack : CallStack
  /-- SP, how many return addresses are held: 0 to 16 (R28, R36) -/
  sp : Fin 17
  /-- DT, the delay timer (R29) -/
  dt : Byte
  /-- ST, the sound timer (R30) -/
  st : Byte
  /-- FB, the display (R31) -/
  fb : FrameBuffer
  /-- KEYQ, the pending key presses, oldest first (R32) -/
  keyq : List Key
  /-- HALT: true after any fault (R33) -/
  halt : Bool
  /-- FAULT_KIND (R33) -/
  faultKind : FaultKind
  /-- FAULT_WORD (R33) -/
  faultWord : Word
  /-- FAULT_ADDR (R33) -/
  faultAddr : Word
deriving DecidableEq, Repr

/-- The surrounding system, outside the block (00_scope.md R9, R10; 10_state.md R34): what it does to the block next. It is
the model's own and no state of the hardware. -/
structure Surroundings where
  /-- the operations it performs next, oldest first; with none pending it performs STEP (R9; log 2) -/
  env : List Operation
  /-- how many STEPs it has given their inputs, the argument of the free values (R10; log 1) -/
  sampled : Nat
deriving DecidableEq, Repr

/-- What one step of the model goes from and to: the block (10_state.md R20) beside its surrounding system. -/
structure State extends Block, Surroundings
deriving DecidableEq, Repr

/-- The block after RESET (10_state.md R37): no cell of MEM differs from its reset content. -/
def Block.reset : Block where
  mem := []
  v := Vector.replicate 16 0x00
  i := 0x0000
  pc := Config.pcReset
  stack := Vector.replicate 16 0x0000
  sp := 0
  dt := 0x00
  st := 0x00
  fb := Vector.replicate 32 0
  keyq := []
  halt := false
  faultKind := .noFault
  faultWord := 0x0000
  faultAddr := 0x0000

/-- The surrounding system before it has done anything: DESIGN CHOICE (log 1, log 2). -/
def Surroundings.initial : Surroundings where
  env := []
  sampled := 0

/-- The machine right after reset: the block after RESET, no operation pending. -/
def State.reset : State := { Block.reset, Surroundings.initial with }

end Sys2Proof.Machine
end

