-- ==== Sys2Proof/Machine/Font.lean ====
section
/-! DEFINITION. The 80 bytes of the digit sprites RESET installs (10_state.md R23) and, from them, what an address that
Memory does not list reads as. PRESUMED (log 4): the source gives no bytes; this is the default of the parameter FONT, the
table of R23. -/

namespace Sys2Proof.Machine

/-- The digit sprites 0 to 7, five bytes each, top row first (10_state.md R23). -/
def fontDigits0to7 : List Byte :=
  [0xF0, 0x90, 0x90, 0x90, 0xF0] ++ [0x20, 0x60, 0x20, 0x20, 0x70] ++
  [0xF0, 0x10, 0xF0, 0x80, 0xF0] ++ [0xF0, 0x10, 0xF0, 0x10, 0xF0] ++
  [0x90, 0x90, 0xF0, 0x10, 0x10] ++ [0xF0, 0x80, 0xF0, 0x10, 0xF0] ++
  [0xF0, 0x80, 0xF0, 0x90, 0xF0] ++ [0xF0, 0x10, 0x20, 0x40, 0x40]

/-- The digit sprites 8 to F, five bytes each, top row first (10_state.md R23). -/
def fontDigits8toF : List Byte :=
  [0xF0, 0x90, 0xF0, 0x90, 0xF0] ++ [0xF0, 0x90, 0xF0, 0x10, 0xF0] ++
  [0xF0, 0x90, 0xF0, 0x90, 0x90] ++ [0xE0, 0x90, 0xE0, 0x90, 0xE0] ++
  [0xF0, 0x80, 0x80, 0x80, 0xF0] ++ [0xE0, 0x90, 0x90, 0x90, 0xE0] ++
  [0xF0, 0x80, 0xF0, 0x80, 0xF0] ++ [0xF0, 0x80, 0xF0, 0x80, 0x80]

/-- FONT[0..79] (00_scope.md R5, 10_state.md R23). -/
def font : List Byte := fontDigits0to7 ++ fontDigits8toF

/-- The content of MEM[a] after RESET, which is what an address that Memory does not list reads as: FONT below 0x50, zero
elsewhere (10_state.md R37, 20_memory.md R61). -/
def Memory.initial (a : Nat) : Byte := font.getD a 0x00

end Sys2Proof.Machine
end

