-- ==== Sys2Proof/Machine/Ops.lean ====
section
/-! DEFINITION. The named operations over memory, registers, the call stack, the framebuffer and the fault record, which
the meanings share (00_scope.md R8). -/

namespace Sys2Proof.Machine

/-- What a step of this machine answers. -/
abbrev Answer := Host.Outcome State Fault Refusal

/-! ### Memory (20_memory.md R62, R63) -/

/-- The canonical form of a memory: addresses strictly rising and inside MEM, no cell equal to its content after RESET. -/
abbrev Memory.wf (m : Memory) : Prop :=
  (m.map Prod.fst).Pairwise (· < ·) ∧ ∀ c ∈ m, c.1 < Config.memSize ∧ c.2 ≠ Memory.initial c.1

/-- `MemRead(a, 1)`: the byte at `a` (R62). Its callers check `a ≤ 4095` first (R67). -/
def Memory.read : Memory → Nat → Byte
  | [], a => Memory.initial a
  | (a', b') :: m, a => if a = a' then b' else Memory.read m a

/-- The canonical cells of one address: none when the byte is what the address reads as unlisted. -/
def Memory.cell (a : Nat) (b : Byte) : Memory := if b = Memory.initial a then [] else [(a, b)]

/-- `MemWrite(a, 1, b)`: set the byte at `a` and change nothing else (R63). Its callers check `a ≤ 4095` first (R67). -/
def Memory.write : Memory → Nat → Byte → Memory
  | [], a, b => Memory.cell a b
  | (a', b') :: m, a, b =>
    if a < a' then Memory.cell a b ++ (a', b') :: m
    else if a = a' then Memory.cell a b ++ m
    else (a', b') :: Memory.write m a b

/-- The `count` bytes from `a` on, in ascending address order (R66). -/
def Memory.readBlock (m : Memory) : Nat → Nat → List Byte
  | _, 0 => []
  | a, count + 1 => m.read a :: m.readBlock (a + 1) count

/-- Write bytes from `a` on, in ascending address order (R66). -/
def Memory.writeBlock : Memory → Nat → List Byte → Memory
  | m, _, [] => m
  | m, a, b :: bs => Memory.writeBlock (m.write a b) (a + 1) bs

/-! ### General registers (10_state.md R24) -/

/-- Read `V[r]`. -/
def State.reg (s : State) (r : RegNum) : Byte := s.v[r.toNat]'r.isLt

/-- `V[r] <- b`. -/
def State.setReg (s : State) (r : RegNum) (b : Byte) : State := { s with v := s.v.set r.toNat b r.isLt }

/-- `V[k] <- b` for the bytes from register `k` on, in ascending order (47_index_and_memory.md R224). -/
def Regs.setFrom : Regs → Nat → List Byte → Regs
  | v, _, [] => v
  | v, k, b :: bs => Regs.setFrom (v.setIfInBounds k b) (k + 1) bs

/-- `V[0] <- b`, `V[1] <- b'` and so on for a list of bytes (47_index_and_memory.md R224). -/
def State.setRegsFrom0 (s : State) (bytes : List Byte) : State := { s with v := Regs.setFrom s.v 0 bytes }

/-- The register VF, which is also the flag (10_state.md R25). -/
def regF : RegNum := 0xF

/-! ### I, the timers, the key queue, memory and the display as wholes -/

/-- `I <- a` (10_state.md R26). -/
def State.setI (s : State) (a : Word) : State := { s with i := a }

/-- `DT <- b` (10_state.md R29). -/
def State.setDt (s : State) (b : Byte) : State := { s with dt := b }

/-- `ST <- b` (10_state.md R30). -/
def State.setSt (s : State) (b : Byte) : State := { s with st := b }

/-- `KEYQ <- q` (10_state.md R32). -/
def State.setKeyq (s : State) (q : List Key) : State := { s with keyq := q }

/-- `FB <- f` (10_state.md R31). -/
def State.setDisplay (s : State) (f : FrameBuffer) : State := { s with fb := f }

/-- Store bytes in MEM from address `a` on (20_memory.md R63, R66). -/
def State.store (s : State) (a : Nat) (bytes : List Byte) : State := { s with mem := s.mem.writeBlock a bytes }

/-! ### Program counter (10_state.md R27) -/

/-- `pc <- target`. -/
def State.setPc (s : State) (target : Word) : State := { s with pc := target }

/-- A skip: PC goes on by 2 more when the condition holds (41_control_transfer.md R140). -/
def State.skipIf (s : State) (c : Bool) : State := if c then s.setPc (s.pc + 2) else s

/-! ### Call stack (10_state.md R28) -/

/-- `Push(ret)`, performed only below depth 16. -/
def State.push (s : State) (ret : Word) (h : s.sp.val < 16) : State :=
  { s with stack := s.stack.set s.sp.val ret h, sp := ⟨s.sp.val + 1, Nat.succ_lt_succ h⟩ }

/-- The value `Pop()` returns: the newest return address, performed only above depth 0. -/
def State.top (s : State) (h : 0 < s.sp.val) : Word :=
  s.stack[s.sp.val - 1]'(by have := s.sp.isLt; omega)

/-- The state `Pop()` leaves: one return address fewer; the cell keeps its value (R28; log 6). -/
def State.pop (s : State) : State :=
  { s with sp := ⟨s.sp.val - 1, Nat.lt_of_le_of_lt (Nat.sub_le _ _) s.sp.isLt⟩ }

/-! ### Framebuffer (10_state.md R31, 43_display.md R171 to R173) -/

/-- `SpriteLine(b, c)`: the row pattern of sprite byte `b` with its leftmost pixel at column `c mod 64` (R171). -/
def spriteLine (b c : Byte) : PixelRow := ((b.setWidth 64) <<< 56).rotateRight (c.toNat % 64)

/-- The display row of sprite row `r`: `(vy + r) mod 32` (R172). -/
def spriteRow (vy : Byte) (r : Nat) : Fin 32 := ⟨(vy.toNat + r) % 32, Nat.mod_lt _ (by decide)⟩

/-- Draw the sprite rows from row `r` on by XOR, and tell whether one of them collided: each row is tested against its own
display row before that row's XOR (R172, R173). -/
def drawRows (vx vy : Byte) : Nat → List Byte → FrameBuffer → Bool → FrameBuffer × Bool
  | _, [], fb, hit => (fb, hit)
  | r, b :: bs, fb, hit =>
    let line := spriteLine b vx
    let old := fb.get (spriteRow vy r)
    drawRows vx vy (r + 1) bs (fb.set (spriteRow vy r).val (old ^^^ line) (spriteRow vy r).isLt)
      (hit || (old &&& line != 0))

/-! ### Faults (60_exceptions.md R240, R241) -/

/-- The code of a fault in FAULT_KIND (R240). -/
def FaultKind.code : FaultKind → BitVec 3
  | .noFault => 0
  | .decodeFault => 1
  | .stackOverflow => 2
  | .stackUnderflow => 3
  | .pcOutOfBounds => 4
  | .memoryOutOfBounds => 5

/-- TAKING A FAULT, the one way into it: `raise kind(addr, word)` sets HALT and the fault record and changes nothing else;
PC stays as it is at that point (R241, R248). -/
def State.raise (s : State) (kind : FaultKind) (addr word : Word) : State :=
  { s with halt := true, faultKind := kind, faultAddr := addr, faultWord := word }

/-- The fault an instruction raises: FAULT_ADDR is its own address, PC - 2 after the fetch, and FAULT_WORD its own word
(R241). -/
def State.raiseFrom (s : State) (kind : FaultKind) (i : Instr) : Answer :=
  .next (s.raise kind (s.pc - 2) (encode i))

/-- LEAVING A FAULT: no instruction does; RESET is the only way out of HALT, and it leaves the one state of 10_state.md
R37 whatever the state was (60_exceptions.md R249, 70_reset_and_hazards.md R280). What the surrounding system does next is
not the block's state and stays. -/
def State.resetBlock (s : State) : State := { s with toBlock := Block.reset }

/-- The completion status of STEP (40_execute_cycle.md R120, R127). -/
inductive Status where
  | success
  | fault (kind : FaultKind)
deriving DecidableEq, Repr

/-- The status that the STEP ending in this state returned: a fault exactly when the block is halted, and then the
recorded one (R121, R127, R241). -/
def State.status (s : State) : Status := if s.halt then .fault s.faultKind else .success

end Sys2Proof.Machine
end

