-- ==== Sys2Proof/Machine/Flags.lean ====
section
/-! DEFINITION. The flag computations (10_state.md R25, 44_alu.md R180): the five arithmetic instructions compute an 8-bit
result and a 1-bit flag from the old operands, then write the result to Vx and after it the flag to VF. -/

namespace Sys2Proof.Machine

/-- A flag as VF holds it: 0x00 or 0x01 (R25). -/
def flagByte (c : Bool) : Byte := if c then 0x01 else 0x00

/-- ADD_REG: the true sum is above 255 (R185). -/
def carryFlag (a b : Byte) : Bool := decide (a.toNat + b.toNat > 255)

/-- SUB and SUBN: `a - b` needs no borrow (R186, R188). -/
def noBorrowFlag (a b : Byte) : Bool := decide (a.toNat ≥ b.toNat)

/-- SHR: the bit shifted out at the bottom (R187). -/
def lowBitFlag (a : Byte) : Bool := a.getLsbD 0

/-- SHL: the bit shifted out at the top (R189). -/
def highBitFlag (a : Byte) : Bool := a.getLsbD 7

/-- Steps (3) and (4) of R180: the result to V[x], then the flag to VF; with `x` = 15 VF ends as the flag. -/
def State.writeResultThenFlag (s : State) (x : RegNum) (result : Byte) (flag : Bool) : State :=
  (s.setReg x result).setReg regF (flagByte flag)

end Sys2Proof.Machine
end

