-- ==== Sys2Proof/Machine/Alu.lean ====
section
/-! DEFINITION. The register-to-register arithmetic and logic instructions (44_alu.md): unsigned, 8 bits (R190). None
faults. -/

namespace Sys2Proof.Machine

/-- LD Vx, Vy (R181). -/
def execLdReg (x y : RegNum) (s : State) : Answer := .next (s.setReg x (s.reg y))

/-- OR Vx, Vy (R182); VF is not touched. -/
def execOr (x y : RegNum) (s : State) : Answer := .next (s.setReg x (s.reg x ||| s.reg y))

/-- AND Vx, Vy (R183); VF is not touched. -/
def execAnd (x y : RegNum) (s : State) : Answer := .next (s.setReg x (s.reg x &&& s.reg y))

/-- XOR Vx, Vy (R184); VF is not touched. -/
def execXor (x y : RegNum) (s : State) : Answer := .next (s.setReg x (s.reg x ^^^ s.reg y))

/-- ADD Vx, Vy (R185). -/
def execAddReg (x y : RegNum) (s : State) : Answer :=
  .next (s.writeResultThenFlag x (s.reg x + s.reg y) (carryFlag (s.reg x) (s.reg y)))

/-- SUB Vx, Vy (R186). -/
def execSub (x y : RegNum) (s : State) : Answer :=
  .next (s.writeResultThenFlag x (s.reg x - s.reg y) (noBorrowFlag (s.reg x) (s.reg y)))

/-- SHR Vx (R187): `y` is ignored (30_encoding.md R99). -/
def execShr (x _y : RegNum) (s : State) : Answer :=
  .next (s.writeResultThenFlag x (s.reg x >>> 1) (lowBitFlag (s.reg x)))

/-- SUBN Vx, Vy (R188). -/
def execSubn (x y : RegNum) (s : State) : Answer :=
  .next (s.writeResultThenFlag x (s.reg y - s.reg x) (noBorrowFlag (s.reg y) (s.reg x)))

/-- SHL Vx (R189): `y` is ignored (30_encoding.md R99). -/
def execShl (x _y : RegNum) (s : State) : Answer :=
  .next (s.writeResultThenFlag x (s.reg x <<< 1) (highBitFlag (s.reg x)))

end Sys2Proof.Machine
end

