-- ==== Sys2Proof/Machine/Operands.lean ====
section
/-! DEFINITION. The operand forms: immediates zero-extended (30_encoding.md R93), the addressing mode "I plus a small
offset" with its range check (47_index_and_memory.md R225), and the two inputs of STEP (00_scope.md R10). -/

namespace Sys2Proof.Machine

/-- `zext_16(nnn)` (R93). -/
def zextAddr (nnn : Addr) : Word := nnn.setWidth 16

/-- `zext_16(b)` (R8). -/
def zextByte (b : Byte) : Word := b.setWidth 16

/-- `zext_8(k)` of a key code (45_keypad.md R203). -/
def zextKey (k : Key) : Byte := k.setWidth 8

/-- The base address of the data access, the number in I (20_memory.md R69). -/
def State.base (s : State) : Nat := s.i.toNat

/-- The range check: does an access of `count` bytes from I reach above address 4095? An access of no byte never does
(20_memory.md R67, 47_index_and_memory.md R225). -/
def State.accessOutOfRange (s : State) (count : Nat) : Bool :=
  decide (1 ≤ count ∧ s.base + count - 1 ≥ Config.memSize)

/-- The input KEYS_HELD of this STEP: as the pending STEP gives it, else a free value (R10, R34; log 1). -/
def State.keysHeld (s : State) : BitVec 16 :=
  match s.env with
  | .step keys _ :: _ => keys
  | _ => Config.freeKeysHeld s.sampled

/-- The input RAND of this STEP: as the pending STEP gives it, else a free value (R10, R34; log 1). -/
def State.rand (s : State) : Byte :=
  match s.env with
  | .step _ rand :: _ => rand
  | _ => Config.freeRand s.sampled

/-- `KeyHeld(k)`: bit `k` of KEYS_HELD for a key code 0 to 15, false for 16 to 255 (45_keypad.md R200). -/
def State.keyHeld (s : State) (k : Byte) : Bool := decide (k.toNat < 16) && s.keysHeld.getLsbD k.toNat

/-- The address of the digit sprite of `b`: `5 * b`, the whole byte multiplied (47_index_and_memory.md R221). -/
def digitSprite (b : Byte) : Word := BitVec.ofNat 16 (Config.fontStride * b.toNat)

/-- The decimal digits of a byte, hundreds first (47_index_and_memory.md R222). -/
def decimalDigits (b : Byte) : List Byte :=
  [BitVec.ofNat 8 (b.toNat / 100), BitVec.ofNat 8 (b.toNat / 10 % 10), BitVec.ofNat 8 (b.toNat % 10)]

/-- The registers V[0] to V[x], the operand of LD_MEM_VX (47_index_and_memory.md R223). -/
def State.regsUpTo (s : State) (x : RegNum) : List Byte := s.v.toList.take (x.toNat + 1)

end Sys2Proof.Machine
end

