-- ==== Sys2Proof/Machine/Control.lean ====
section
/-! DEFINITION. The control transfer instructions (41_control_transfer.md). PC holds `a + 2` when a meaning starts, where
`a` is the instruction's own address (R124). Targets are not checked (R140). -/

namespace Sys2Proof.Machine

/-- RET (R141). -/
def execRet (s : State) : Answer :=
  if h : 0 < s.sp.val then .next (s.pop.setPc (s.top h))
  else s.raiseFrom .stackUnderflow .ret

/-- JP nnn (R142). -/
def execJp (nnn : Addr) (s : State) : Answer := .next (s.setPc (zextAddr nnn))

/-- CALL nnn (R143): the already advanced PC is pushed. -/
def execCall (nnn : Addr) (s : State) : Answer :=
  if h : s.sp.val < 16 then .next ((s.push s.pc h).setPc (zextAddr nnn))
  else s.raiseFrom .stackOverflow (.call nnn)

/-- SE Vx, kk (R144). -/
def execSeImm (x : RegNum) (kk : Byte) (s : State) : Answer := .next (s.skipIf (s.reg x == kk))

/-- SNE Vx, kk (R145). -/
def execSneImm (x : RegNum) (kk : Byte) (s : State) : Answer := .next (s.skipIf (s.reg x != kk))

/-- SE Vx, Vy (R146). -/
def execSeReg (x y : RegNum) (s : State) : Answer := .next (s.skipIf (s.reg x == s.reg y))

/-- SNE Vx, Vy (R147). -/
def execSneReg (x y : RegNum) (s : State) : Answer := .next (s.skipIf (s.reg x != s.reg y))

/-- JP V0, nnn (R148): a 16-bit sum, not reduced to 12 bits. -/
def execJpV0 (nnn : Addr) (s : State) : Answer := .next (s.setPc (zextByte (s.reg 0x0) + zextAddr nnn))

end Sys2Proof.Machine
end

