-- ==== Sys2Proof/Machine/Display.lean ====
section
/-! DEFINITION. The display instructions and the collision detector (43_display.md). -/

namespace Sys2Proof.Machine

/-- CLS (R170). -/
def execCls (s : State) : Answer := .next (s.setDisplay (Vector.replicate 32 0))

/-- DRW Vx, Vy, n (R172): the coordinates are read before VF is written; VF is written once, after all rows, as the
collision over all rows (R173). -/
def execDrw (x y : RegNum) (n : Nibble) (s : State) : Answer :=
  if s.accessOutOfRange n.toNat then s.raiseFrom .memoryOutOfBounds (.drw x y n)
  else
    let drawn := drawRows (s.reg x) (s.reg y) 0 (s.mem.readBlock s.base n.toNat) s.fb false
    .next ((s.setDisplay drawn.1).setReg regF (flagByte drawn.2))

end Sys2Proof.Machine
end

