-- ==== Sys2Proof/Machine/Immediate.lean ====
section
/-! DEFINITION. The immediate and random instructions (42_immediate_and_random.md). None writes a flag. -/

namespace Sys2Proof.Machine

/-- LD Vx, kk (R160). -/
def execLdImm (x : RegNum) (kk : Byte) (s : State) : Answer := .next (s.setReg x kk)

/-- ADD Vx, kk (R161): modulo 256, no flag. -/
def execAddImm (x : RegNum) (kk : Byte) (s : State) : Answer := .next (s.setReg x (s.reg x + kk))

/-- LD I, nnn (R162). -/
def execLdI (nnn : Addr) (s : State) : Answer := .next (s.setI (zextAddr nnn))

/-- RND Vx, kk (R163): the input RAND of this STEP under the mask. -/
def execRnd (x : RegNum) (kk : Byte) (s : State) : Answer := .next (s.setReg x (s.rand &&& kk))

end Sys2Proof.Machine
end

