-- ==== Sys2Proof/Machine/Index.lean ====
section
/-! DEFINITION. The address-register and memory instructions (47_index_and_memory.md). I is never changed by a memory
access; an access that would reach above address 4095 raises MemoryOutOfBounds and transfers nothing (R225). -/

namespace Sys2Proof.Machine

/-- ADD I, Vx (R220): modulo 65536, no flag. -/
def execAddI (x : RegNum) (s : State) : Answer := .next (s.setI (s.i + zextByte (s.reg x)))

/-- LD F, Vx (R221). -/
def execLdF (x : RegNum) (s : State) : Answer := .next (s.setI (digitSprite (s.reg x)))

/-- LD B, Vx (R222). -/
def execLdB (x : RegNum) (s : State) : Answer :=
  if s.accessOutOfRange 3 then s.raiseFrom .memoryOutOfBounds (.ldB x)
  else .next (s.store s.base (decimalDigits (s.reg x)))

/-- LD [I], Vx (R223): V[0] to V[x], `x + 1` registers. -/
def execLdMemVx (x : RegNum) (s : State) : Answer :=
  if s.accessOutOfRange (x.toNat + 1) then s.raiseFrom .memoryOutOfBounds (.ldMemVx x)
  else .next (s.store s.base (s.regsUpTo x))

/-- LD Vx, [I] (R224): V[0] to V[x], `x + 1` registers. -/
def execLdVxMem (x : RegNum) (s : State) : Answer :=
  if s.accessOutOfRange (x.toNat + 1) then s.raiseFrom .memoryOutOfBounds (.ldVxMem x)
  else .next (s.setRegsFrom0 (s.mem.readBlock s.base (x.toNat + 1)))

end Sys2Proof.Machine
end

