-- ==== Sys2Proof/Machine/Keypad.lean ====
section
/-! DEFINITION. The keypad instructions (45_keypad.md): SKP and SKNP look at the held keys, LD_VX_K at the queue. -/

namespace Sys2Proof.Machine

/-- SKP Vx (R201). -/
def execSkp (x : RegNum) (s : State) : Answer := .next (s.skipIf (s.keyHeld (s.reg x)))

/-- SKNP Vx (R202). -/
def execSknp (x : RegNum) (s : State) : Answer := .next (s.skipIf (!s.keyHeld (s.reg x)))

/-- LD Vx, K (R203): with no key queued PC goes back to the instruction; else the oldest key to V[x] and the whole queue
is emptied. -/
def execLdVxK (x : RegNum) (s : State) : Answer :=
  match s.keyq with
  | [] => .next (s.setPc (s.pc - 2))
  | k :: _ => .next ((s.setKeyq []).setReg x (zextKey k))

end Sys2Proof.Machine
end

