-- ==== Sys2Proof/Machine/Timers.lean ====
section
/-! DEFINITION. The timer access instructions (46_timers.md). No instruction decrements a timer. -/

namespace Sys2Proof.Machine

/-- LD Vx, DT (R210). -/
def execLdVxDt (x : RegNum) (s : State) : Answer := .next (s.setReg x s.dt)

/-- LD DT, Vx (R211). -/
def execLdDtVx (x : RegNum) (s : State) : Answer := .next (s.setDt (s.reg x))

/-- LD ST, Vx (R212). -/
def execLdStVx (x : RegNum) (s : State) : Answer := .next (s.setSt (s.reg x))

end Sys2Proof.Machine
end

