-- ==== Sys2Proof/Machine/Environment.lean ====
section
/-! DEFINITION. The operations of the surrounding system other than STEP: TICK, KEY_EVENT, LOAD and RESET
(60_exceptions.md, 70_reset_and_hazards.md). Each is accepted in every state, halted ones too (R249). -/

namespace Sys2Proof.Machine

/-- A timer after one TICK: one less, and zero stays zero (60_exceptions.md R255). -/
def tickTimer (t : Byte) : Byte := if t = 0 then 0 else t - 1

/-- TICK (60_exceptions.md R255). -/
def State.tick (s : State) : State := (s.setDt (tickTimer s.dt)).setSt (tickTimer s.st)

/-- KEY_EVENT(k) (60_exceptions.md R259): appended at the tail, no deduplication. -/
def State.keyEvent (s : State) (k : Key) : State := s.setKeyq (s.keyq ++ [k])

/-- Does LOAD succeed: `base + len ≤ 4096` (60_exceptions.md R258)? -/
def loadFits (base len : Nat) : Bool := decide (base + len ≤ Config.memSize)

/-- LOAD(base, bytes) (60_exceptions.md R258): MEM only; on failure nothing is written, and it is no fault. -/
def State.load (s : State) (base : Nat) (bytes : List Byte) : State :=
  if loadFits base bytes.length then s.store base bytes else s

/-- The pending operation has been performed (log 2). -/
def State.dropOperation (s : State) : State := { s with env := s.env.tail }

/-- A STEP has sampled its inputs, whether it used them or not (00_scope.md R10; log 1, log 2). -/
def State.dropInputs (s : State) : State := { s.dropOperation with sampled := s.sampled + 1 }

end Sys2Proof.Machine
end

