-- ==== Sys2Proof/Machine/Cycle.lean ====
section
/-! DEFINITION. STEP, the execute-one-cycle operation (40_execute_cycle.md R120), and the operation the surrounding system
performs next (00_scope.md R9). -/

namespace Sys2Proof.Machine

/-- `w = MemRead(PC, 2)`: the byte at PC is the high byte (R123). -/
def State.fetchWord (s : State) : Word := wordOfBytes (s.mem.read s.pc.toNat) (s.mem.read (s.pc.toNat + 1))

/-- `PC <- a + 2`, before decode and before any effect of the instruction (R124). -/
def State.advance (s : State) : State := s.setPc (s.pc + 2)

/-- STEP, line by line (R120): a halted block does not step (R121), the bounds check (R122), fetch (R123), advance (R124),
decode (R125), execute (R126). -/
def executeCycle (s : State) : Answer :=
  if s.halt then .next s
  else if s.pc.toNat > Config.pcMaxFetch then .next (s.raise .pcOutOfBounds s.pc 0)
  else
    match decode s.fetchWord with
    | none => .next (s.advance.raise .decodeFault s.pc s.fetchWord)
    | some i => exec i s.advance

/-- STEP as an operation of the surrounding system: afterwards its inputs are used up (R10). -/
def performStep (s : State) : Answer :=
  match executeCycle s with
  | .next t => .next t.dropInputs
  | .fault f => .fault f
  | .refused r => .refused r

/-- The next operation on the block (R9): the first pending one; STEP when none is pending. -/
def nextOperation (s : State) : Answer :=
  match s.env with
  | [] => performStep s
  | .step _ _ :: _ => performStep s
  | .tick :: _ => .next s.tick.dropOperation
  | .keyEvent k :: _ => .next (s.keyEvent k).dropOperation
  | .load base bytes :: _ => .next (s.load base bytes).dropOperation
  | .reset :: _ => .next s.resetBlock.dropOperation

/-- Is the operation a STEP? -/
def Operation.isStep : Operation → Bool
  | .step _ _ => true
  | .reset => false
  | .load _ _ => false
  | .keyEvent _ => false
  | .tick => false

/-- Place bytes where the next STEP fetches, and make STEP the next operation: pending operations before the first STEP
are left out. A state whose PC cannot be fetched from (R122) has no such place. -/
def State.placeAtFetch (s : State) (bytes : List Byte) : State :=
  if s.pc.toNat > Config.pcMaxFetch then s
  else { s.store s.pc.toNat bytes with env := s.env.dropWhile (fun op => !op.isStep) }

end Sys2Proof.Machine
end

