-- ==== Sys2Proof/Machine/Step.lean ====
section
/-! DEFINITION. One step of the machine: the next operation of the surrounding system, STEP unless another is pending
(00_scope.md R9, 40_execute_cycle.md R120; log 2). -/

namespace Sys2Proof.Machine

/-- One step: the next operation on the block. -/
def step (s : State) : Host.Outcome State Fault Refusal := nextOperation s

/-- The state with one instruction, its bits numbered as spec/opcode_table.json numbers them, stored where the next STEP
fetches (log 3). -/
def State.withFetchWord (s : State) (nbits w : Nat) : State := s.placeAtFetch (tableBytes nbits w)

end Sys2Proof.Machine
end

