-- ==== Sys2Proof/Safety.lean ====
section
/-! DEFINITION. The terms claims are stated in: the fields of a word, when a STEP fetches, what a state may change into, the invariant of the
machine, and the pixels of the display. -/

namespace Sys2Proof

/-! ### The fields of a word -/

/-- The numbers in the fields a format names, in the order `x`, `y`, then `n`, `kk` or `nnn` (30_encoding.md R91, R92): `x` is
w[11:8], `y` w[7:4], `n` w[3:0], `kk` w[7:0], `nnn` w[11:0]. Written by division, apart from the decoder's own fields. -/
def Format.operands (f : Format) (w : Word) : List Nat :=
  match f with
  | .e => []
  | .a => [w.toNat % 4096]
  | .ri => [w.toNat / 256 % 16, w.toNat % 256]
  | .rrn => [w.toNat / 256 % 16, w.toNat / 16 % 16, w.toNat % 16]
  | .rr => [w.toNat / 256 % 16, w.toNat / 16 % 16]
  | .rx => [w.toNat / 256 % 16]

/-- The operands of an instruction as numbers, in the same order: `x` before `y` before the rest. -/
def Instr.operands : Instr → List Nat
  | .cls => []
  | .ret => []
  | .jp nnn => [nnn.toNat]
  | .call nnn => [nnn.toNat]
  | .seImm x kk => [x.toNat, kk.toNat]
  | .sneImm x kk => [x.toNat, kk.toNat]
  | .seReg x y => [x.toNat, y.toNat]
  | .ldImm x kk => [x.toNat, kk.toNat]
  | .addImm x kk => [x.toNat, kk.toNat]
  | .ldReg x y => [x.toNat, y.toNat]
  | .or x y => [x.toNat, y.toNat]
  | .and x y => [x.toNat, y.toNat]
  | .xor x y => [x.toNat, y.toNat]
  | .addReg x y => [x.toNat, y.toNat]
  | .sub x y => [x.toNat, y.toNat]
  | .shr x y => [x.toNat, y.toNat]
  | .subn x y => [x.toNat, y.toNat]
  | .shl x y => [x.toNat, y.toNat]
  | .sneReg x y => [x.toNat, y.toNat]
  | .ldI nnn => [nnn.toNat]
  | .jpV0 nnn => [nnn.toNat]
  | .rnd x kk => [x.toNat, kk.toNat]
  | .drw x y n => [x.toNat, y.toNat, n.toNat]
  | .skp x => [x.toNat]
  | .sknp x => [x.toNat]
  | .ldVxDt x => [x.toNat]
  | .ldVxK x => [x.toNat]
  | .ldDtVx x => [x.toNat]
  | .ldStVx x => [x.toNat]
  | .addI x => [x.toNat]
  | .ldF x => [x.toNat]
  | .ldB x => [x.toNat]
  | .ldMemVx x => [x.toNat]
  | .ldVxMem x => [x.toNat]

end Sys2Proof

namespace Sys2Proof.Machine

/-! ### When STEP fetches -/

/-- The next operation on the block is STEP. -/
def State.stepIsNext (s : State) : Bool :=
  match s.env with
  | [] => true
  | op :: _ => op.isStep

/-- The next operation is a STEP that fetches: the block is not halted and PC is in bounds (40_execute_cycle.md R121,
R122). -/
structure State.Fetches (s : State) : Prop where
  stepNext : s.stepIsNext = true
  running : s.halt = false
  inBounds : s.pc.toNat ≤ 4094

/-! ### Frames -/

/-- A part of the state that an instruction changes or leaves alone; memory is seen byte by byte through the model's read,
the display row by row. -/
inductive Part where
  | reg (r : RegNum)
  | i
  | pc
  | stackCell (k : Fin 16)
  | sp
  | dt
  | st
  | row (r : Fin 32)
  | keyq
  | faultRecord
  | byte (a : Nat)
  | env
  | sampled
deriving DecidableEq, Repr

/-- `t` has the part as `s` has it. -/
def State.Keeps (s t : State) : Part → Prop
  | .reg r => t.reg r = s.reg r
  | .i => t.i = s.i
  | .pc => t.pc = s.pc
  | .stackCell k => t.stack.get k = s.stack.get k
  | .sp => t.sp = s.sp
  | .dt => t.dt = s.dt
  | .st => t.st = s.st
  | .row r => t.fb.get r = s.fb.get r
  | .keyq => t.keyq = s.keyq
  | .faultRecord =>
    t.halt = s.halt ∧ t.faultKind = s.faultKind ∧ t.faultWord = s.faultWord ∧ t.faultAddr = s.faultAddr
  | .byte a => t.mem.read a = s.mem.read a
  | .env => t.env = s.env
  | .sampled => t.sampled = s.sampled

/-- `t` differs from `s` in no part but the listed ones. -/
def State.ChangesOnly (s t : State) (changed : List Part) : Prop := ∀ p, p ∉ changed → s.Keeps t p

/-- The `count` bytes of memory from address `a` on. -/
def bytesFrom (a count : Nat) : List Part := (List.range count).map (fun k => Part.byte (a + k))

/-- All rows of the display. -/
def allRows : List Part := (List.finRange 32).map Part.row

/-- The state records the fault `kind` of the instruction word `word` at address `addr` (60_exceptions.md R241). -/
structure State.Records (s : State) (kind : FaultKind) (addr word : Word) : Prop where
  halt : s.halt = true
  kind : s.faultKind = kind
  addr : s.faultAddr = addr
  word : s.faultWord = word

/-! ### The invariant -/

/-- The fault record says what is so: it is empty exactly while the block runs, and each fault's record fits the state the
fault left (10_state.md R33, 60_exceptions.md R241 to R246). -/
structure State.RecordFits (s : State) : Prop where
  halted : s.halt = true ↔ s.faultKind ≠ .noFault
  empty : s.faultKind = .noFault → s.faultWord = 0 ∧ s.faultAddr = 0
  decodeFault : s.faultKind = .decodeFault → decode s.faultWord = none
  stackOverflow : s.faultKind = .stackOverflow → s.sp = 16
  stackUnderflow : s.faultKind = .stackUnderflow → s.sp = 0 ∧ s.faultWord = 0x00EE
  pcOutOfBounds : s.faultKind = .pcOutOfBounds → s.faultWord = 0 ∧ s.faultAddr = s.pc ∧ s.pc.toNat > 4094
  afterFetch : s.faultKind ≠ .noFault → s.faultKind ≠ .pcOutOfBounds →
    s.faultAddr.toNat ≤ 4094 ∧ s.pc = s.faultAddr + 2

/-- The invariant of the machine: memory is in its canonical form, the fault record fits, no return address is above 4096
(41_control_transfer.md R141) and PC is at most 0x10FE (10_state.md R27, "no reachable computation overflows 16 bits"). -/
structure State.Inv (s : State) : Prop where
  memory : s.mem.wf
  record : s.RecordFits
  returns : ∀ k : Fin 16, (s.stack.get k).toNat ≤ 4096
  pcBound : s.pc.toNat ≤ 0x10FE

/-! ### Which instructions write what -/

/-- The mnemonics of the six instructions that write a flag into VF (10_state.md R25). -/
def flagWriters : List String := ["ADD_REG", "SUB", "SUBN", "SHR", "SHL", "DRW"]

/-- The register an instruction names as its destination; LD_VX_MEM writes V0 up to it (10_state.md R25). -/
def destination : Instr → Option RegNum
  | .cls => none
  | .ret => none
  | .jp _ => none
  | .call _ => none
  | .seImm _ _ => none
  | .sneImm _ _ => none
  | .seReg _ _ => none
  | .ldImm x _ => some x
  | .addImm x _ => some x
  | .ldReg x _ => some x
  | .or x _ => some x
  | .and x _ => some x
  | .xor x _ => some x
  | .addReg x _ => some x
  | .sub x _ => some x
  | .shr x _ => some x
  | .subn x _ => some x
  | .shl x _ => some x
  | .sneReg _ _ => none
  | .ldI _ => none
  | .jpV0 _ => none
  | .rnd x _ => some x
  | .drw _ _ _ => none
  | .skp _ => none
  | .sknp _ => none
  | .ldVxDt x => some x
  | .ldVxK x => some x
  | .ldDtVx _ => none
  | .ldStVx _ => none
  | .addI _ => none
  | .ldF _ => none
  | .ldB _ => none
  | .ldMemVx _ => none
  | .ldVxMem x => some x

/-! ### Pixels (10_state.md R31, 43_display.md R171, R172) -/

/-- The pixel at row `r`, column `c`: bit `63 - c` of the row (R31). -/
def State.pixel (s : State) (r : Fin 32) (c : Fin 64) : Bool := (s.fb.get r).getLsbD (63 - c.val)

/-- Does the sprite that `DRW Vx, Vy, n` draws have a set pixel at row `r`, column `c`? Sprite pixel (p, j), row `p` of `n`
and `j`-th from the left of 8, is bit `7 - j` of MEM[I + p] and lands at row `(vy + p) mod 32`, column `(vx + j) mod 64`
(R171, R172). -/
def State.SpritePixel (s : State) (x y : RegNum) (n : Nibble) (r : Fin 32) (c : Fin 64) : Prop :=
  ∃ p j : Nat, p < n.toNat ∧ j < 8 ∧ r.val = ((s.reg y).toNat + p) % 32 ∧ c.val = ((s.reg x).toNat + j) % 64 ∧
    (s.mem.read (s.i.toNat + p)).getLsbD (7 - j) = true

end Sys2Proof.Machine
end

