-- ==== Sys2Proof/Certificates/Slice0/Obligations.lean ====
section
/-! DEFINITION. The statements for the provers. Each docstring names the rule of the spec it formalises; where a clause
rests on the spec's own decision (a sentence it marks "decision" or "from general knowledge") or on a log entry of this
model, it says so. A meaning starts with PC = a + 2, a being the instruction's own address (40_execute_cycle.md R124): a
statement whose list of changes lacks `.pc` says that PC ends as a + 2. -/

open Sys2Proof Sys2Proof.Machine

/-! ### Encoding -/

/-- Decoding the word of any instruction gives it back, every field at every value (30_encoding.md R91, R95; twelve of the
patterns are the spec's decision D4). -/
def Obligations.DecodeInvertsEncode : Prop := ∀ i : Instr, decode (encode i) = some i

/-- A word that decodes to an instruction is that instruction's word: no bit of it is ignored (R95, R99; D4). -/
def Obligations.EncodeInvertsDecode : Prop := ∀ (w : Word) (i : Instr), decode w = some i → encode i = w

/-- The decoder answers the row of the opcode map that the word matches, with its operands the fields that the row's format
names, and none exactly for the illegal words (R91, R92, R94, R95, R96; D4, D3). -/
def Obligations.DecodeFollowsTheOpcodeMap : Prop :=
  ∀ w : Word, (decode w).map (fun i => (i.mnemonic, i.operands)) =
    (opcodeTable.find? (fun r => r.accepts w)).map (fun r => (r.mnemonic, r.format.operands w))

/-- No word matches two rows of the opcode map (R94, which the spec marks as derived from R95). -/
def Obligations.NoWordMatchesTwoRows : Prop :=
  ∀ (w : Word) (r₁ r₂ : OpcodeRow), r₁ ∈ opcodeTable → r₂ ∈ opcodeTable → r₁.accepts w = true → r₂.accepts w = true →
    r₁ = r₂

/-- One word of each family, written out from the spec's examples (S8, T3, I1, A6, G13, K1, M1, X13) and three illegal words
(E9, E11, E16). The words of JP, LD_IMM and DRW are the spec's decision D4 (log 5), that 0x0123 is no instruction its D3. -/
def Obligations.SpecWordsDecode : Prop :=
  decode 0x00E0 = some .cls ∧ decode 0x1228 = some (.jp 0x228) ∧ decode 0x6A7F = some (.ldImm 0xA 0x7F) ∧
  decode 0x8124 = some (.addReg 0x1 0x2) ∧ decode 0xD005 = some (.drw 0x0 0x0 0x5) ∧ decode 0xE39E = some (.skp 0x3) ∧
  decode 0xF207 = some (.ldVxDt 0x2) ∧ decode 0xF265 = some (.ldVxMem 0x2) ∧
  decode 0x5121 = none ∧ decode 0x8128 = none ∧ decode 0x0123 = none

/-! ### The execute cycle -/

/-- A STEP runs the decoded instruction: when the two bytes at PC decode to `i`, `step` is `exec i` on the state whose PC has
been advanced by 2, and then the STEP's inputs are used up (40_execute_cycle.md R120, R124 to R127; the last part is the
model's own: log 1, log 2). -/
def Obligations.StepRunsTheDecodedInstruction : Prop :=
  ∀ (s : State) (i : Instr), s.Fetches → decodeBytes (s.mem.readBlock s.pc.toNat 2) = .ok (i, []) →
    s.advance.pc = s.pc + 2 ∧ s.ChangesOnly s.advance [.pc] ∧
    ∃ t, exec i s.advance = .next t ∧ step s = .next t.dropInputs ∧ t.dropInputs.env = s.env.tail ∧
      t.dropInputs.sampled = s.sampled + 1 ∧ t.ChangesOnly t.dropInputs [.env, .sampled]

/-- The fetched word: `w[15:8] = MEM[PC]`, `w[7:0] = MEM[PC+1]` (R123, R64); and it is MEM as it is at this moment: two
bytes just stored there are the word fetched (20_memory.md R72, the spec's decision D27). -/
def Obligations.FetchIsBigEndianAndCurrent : Prop :=
  ∀ s : State, s.pc.toNat ≤ 4094 →
    s.fetchWord.extractLsb' 8 8 = s.mem.read s.pc.toNat ∧ s.fetchWord.extractLsb' 0 8 = s.mem.read (s.pc.toNat + 1) ∧
    (s.mem.wf → ∀ hi lo : Byte, (s.store s.pc.toNat [hi, lo]).fetchWord = hi ++ lo)

/-- A fetched word that is no instruction raises DecodeFault with the raw word and the faulting address, PC - 2, and changes
nothing else (R125, R242; the fault record is the spec's decision D15, the state it leaves D16; which words are none D3, D4). -/
def Obligations.UndecodableWordFaults : Prop :=
  ∀ s : State, s.Fetches → decode s.fetchWord = none →
    ∃ t, step s = .next t ∧ t.Records .decodeFault s.pc s.fetchWord ∧ t.pc = s.pc + 2 ∧
      t.status = .fault .decodeFault ∧ s.ChangesOnly t [.pc, .faultRecord, .env, .sampled]

/-- STEP with PC above 4094 raises PcOutOfBounds before any fetch and leaves PC as it is (R122, R245; decisions D7, D15). -/
def Obligations.PcOutOfRangeFaults : Prop :=
  ∀ s : State, s.stepIsNext = true → s.halt = false → s.pc.toNat > 4094 →
    ∃ t, step s = .next t ∧ t.Records .pcOutOfBounds s.pc 0 ∧ t.status = .fault .pcOutOfBounds ∧
      s.ChangesOnly t [.faultRecord, .env, .sampled]

/-- STEP on a halted block changes nothing and returns the recorded fault (R121; the spec's decisions D15, D30). -/
def Obligations.HaltedStepChangesNothing : Prop :=
  ∀ s : State, s.stepIsNext = true → s.halt = true →
    ∃ t, step s = .next t ∧ t.status = .fault s.faultKind ∧ s.ChangesOnly t [.env, .sampled]

/-- Faults are precise: when a STEP of a running block faults, nothing differs but the fault record and PC; the record names
the address and the word of the instruction, and PC is past it unless nothing was fetched (60_exceptions.md R241; the
spec's decisions D7, D8, D15, D16). -/
def Obligations.FaultsArePrecise : Prop :=
  ∀ s t : State, s.stepIsNext = true → s.halt = false → step s = .next t → t.halt = true →
    s.ChangesOnly t [.pc, .faultRecord, .env, .sampled] ∧ t.faultKind ≠ .noFault ∧ t.faultAddr = s.pc ∧
    (s.pc.toNat > 4094 → t.pc = s.pc ∧ t.faultWord = 0) ∧
    (s.pc.toNat ≤ 4094 → t.pc = s.pc + 2 ∧ t.faultWord = s.fetchWord)

/-- The inputs of STEP reach the machine through three instructions only: unless the fetched word is SKP or SKNP, STEP is
the same for every KEYS_HELD, and unless it is RND, for every RAND (40_execute_cycle.md R128, which the spec marks as
derived). -/
def Obligations.InputsReachOnlyThreeInstructions : Prop :=
  ∀ (s : State) (keys keys' : BitVec 16) (rand rand' : Byte) (rest : List Operation),
    ((∀ x, decode s.fetchWord ≠ some (.skp x)) → (∀ x, decode s.fetchWord ≠ some (.sknp x)) →
      step { s with env := .step keys rand :: rest } = step { s with env := .step keys' rand :: rest }) ∧
    ((∀ x kk, decode s.fetchWord ≠ some (.rnd x kk)) →
      step { s with env := .step keys rand :: rest } = step { s with env := .step keys rand' :: rest })

/-- Which instructions can change which state: KEYQ only LD_VX_K, DT only LD_DT_VX, ST only LD_ST_VX, FB only CLS and DRW
(40_execute_cycle.md R128), MEM only LD_B and LD_MEM_VX (10_state.md R21), the call stack only CALL and RET (R28), I only
LD_I, ADD_I and LD_F (R26). -/
def Obligations.EachStateHasItsWriters : Prop :=
  ∀ (i : Instr) (s t : State), exec i s = .next t →
    (i.mnemonic ≠ "LD_VX_K" → t.keyq = s.keyq) ∧ (i.mnemonic ≠ "LD_DT_VX" → t.dt = s.dt) ∧
    (i.mnemonic ≠ "LD_ST_VX" → t.st = s.st) ∧ (i.mnemonic ∉ ["CLS", "DRW"] → t.fb = s.fb) ∧
    (i.mnemonic ∉ ["LD_B", "LD_MEM_VX"] → t.mem = s.mem) ∧
    (i.mnemonic ∉ ["CALL", "RET"] → t.stack = s.stack ∧ t.sp = s.sp) ∧
    (i.mnemonic ∉ ["LD_I", "ADD_I", "LD_F"] → t.i = s.i)

/-- VF as the flag: the six flag writers leave 0x00 or 0x01 in it, never anything else, unless they raise a fault; every
other instruction leaves VF alone unless the program names VF as its destination (10_state.md R25; the spec's decisions D10
for `x` = 15, D11 for OR, AND, XOR and D23 for DRW with `n` = 0). -/
def Obligations.FlagIsZeroOrOne : Prop :=
  ∀ (i : Instr) (s t : State), exec i s = .next t →
    (i.mnemonic ∈ flagWriters → s.halt = false → t.halt = false → t.reg 0xF = 0x00 ∨ t.reg 0xF = 0x01) ∧
    (i.mnemonic ∉ flagWriters → destination i ≠ some 0xF → t.reg 0xF = s.reg 0xF)

/-- Only the faulting conditions of the spec halt the block: an instruction that is executed while the block runs leaves it
running, except CALL with 16 return addresses held, RET with none, and DRW, LD_B, LD_MEM_VX, LD_VX_MEM reaching above
address 4095 (40_execute_cycle.md R126, 60_exceptions.md R243, R244, R247; MemoryOutOfBounds is the spec's decision D8, HALT D15, DRW with `n` = 0 D23). -/
def Obligations.OnlyTheSpecsConditionsHalt : Prop :=
  ∀ (i : Instr) (s t : State), s.halt = false → exec i s = .next t →
    (t.halt = true ↔
      (∃ nnn, i = .call nnn) ∧ s.sp.val = 16 ∨ i = .ret ∧ s.sp.val = 0 ∨
      (∃ x y n, i = .drw x y n ∧ 1 ≤ n.toNat ∧ s.i.toNat + n.toNat - 1 > 4095) ∨
      (∃ x, i = .ldB x) ∧ s.i.toNat + 2 > 4095 ∨
      (∃ x, (i = .ldMemVx x ∨ i = .ldVxMem x) ∧ s.i.toNat + x.toNat > 4095))

/-- Every step answers a next state: the machine never ends in a fault or a refusal of the host's kind, since each fault of
the hardware is entered as a state (60_exceptions.md R241, R249; that a fault is a next state is the model's: log 8). -/
def Obligations.EveryStepAnswersANextState : Prop := ∀ s : State, ∃ t, step s = .next t

/-- Every operation on the block, STEP and the four others, keeps the invariant: canonical memory (log 9), a fault record
that fits (the spec's decisions D7, D15, D16; the word of RET D4), return addresses of at most 4096 (R141) and PC of at most
0x10FE (10_state.md R27, which the spec marks as derived; D26). -/
def Obligations.StepKeepsTheInvariant : Prop := ∀ s t : State, s.Inv → step s = .next t → t.Inv

/-- The state after RESET meets the invariant. -/
def Obligations.ResetMeetsTheInvariant : Prop := State.reset.Inv

/-! ### Memory -/

/-- Two memories in canonical form that read alike at every address that exists are the same data (20_memory.md R62: reading
returns the value last written; the canonical form is the model's: log 9). -/
def Obligations.CanonicalMemoryIsItsContents : Prop :=
  ∀ m m' : Memory, m.wf → m'.wf → (∀ a, a < 4096 → m.read a = m'.read a) → m = m'

/-! ### The operations of the surrounding system -/

/-- RESET from any state, halted ones too, leaves the state of 10_state.md R37 (70_reset_and_hazards.md R280; KEYQ and the
fault record are the spec's decisions D14, D15; the bytes of the digit sprites are its decision D17, log 4). -/
def Obligations.ResetLeavesTheResetState : Prop :=
  ∀ (s : State) (rest : List Operation), s.env = .reset :: rest →
    ∃ t, step s = .next t ∧ (∀ a, t.mem.read a = if a < 80 then font.getD a 0 else 0) ∧ (∀ r, t.reg r = 0) ∧
      t.i = 0 ∧ t.pc = 0x0200 ∧ (∀ k, t.stack.get k = 0) ∧ t.sp = 0 ∧ t.dt = 0 ∧ t.st = 0 ∧ (∀ r, t.fb.get r = 0) ∧
      t.keyq = [] ∧ t.halt = false ∧ t.faultKind = .noFault ∧ t.faultWord = 0 ∧ t.faultAddr = 0 ∧ t.env = rest

/-- The entry point is fixed: after a RESET and any operations but STEP (LOADs at any base address, TICKs, KEY_EVENTs, or none),
PC is 0x0200, and the first STEP fetches and decodes the word at 0x200: it executes the instruction the word is, and returns
DecodeFault where it is none (70_reset_and_hazards.md R281, R280; the order of operations is the model's: log 2; how the fault
is kept is the spec's decision D15). -/
def Obligations.EntryPointIsFixed : Prop :=
  ∀ (s : State) (ops rest : List Operation), s.env = .reset :: (ops ++ rest) → (∀ op ∈ ops, op.isStep = false) →
    ∃ t : State, core.run (ops.length + 1) s = .next t ∧ t.env = rest ∧ t.pc = 0x0200 ∧
      (t.stepIsNext = true →
        (∀ i, decode (t.mem.read 0x200 ++ t.mem.read 0x201) = some i →
          ∃ u, exec i t.advance = .next u ∧ step t = .next u.dropInputs) ∧
        (decode (t.mem.read 0x200 ++ t.mem.read 0x201) = none →
          ∃ u, step t = .next u ∧ u.status = .fault .decodeFault))

/-- TICK: each nonzero timer goes down by one, zero stays zero, nothing else changes, in every state (60_exceptions.md R255;
that it is accepted in every state is the spec's decision D21). -/
def Obligations.TickCountsTimersDown : Prop :=
  ∀ (s : State) (rest : List Operation), s.env = .tick :: rest →
    ∃ t, step s = .next t ∧ t.dt.toNat = s.dt.toNat - 1 ∧ t.st.toNat = s.st.toNat - 1 ∧ t.env = rest ∧
      s.ChangesOnly t [.dt, .st, .env]

/-- KEY_EVENT(k): `KEYQ <- KEYQ followed by k`, without deduplication, in every state (60_exceptions.md R259). -/
def Obligations.KeyEventAppendsTheKey : Prop :=
  ∀ (s : State) (k : Key) (rest : List Operation), s.env = .keyEvent k :: rest →
    ∃ t, step s = .next t ∧ t.keyq = s.keyq ++ [k] ∧ t.env = rest ∧ s.ChangesOnly t [.keyq, .env]

/-- LOAD of bytes that fit writes them from the base address on and changes nothing else (60_exceptions.md R258; D19). -/
def Obligations.LoadWritesItsBytes : Prop :=
  ∀ (s : State) (base : Nat) (bytes : List Byte) (rest : List Operation), s.mem.wf →
    s.env = .load base bytes :: rest → base + bytes.length ≤ 4096 →
    ∃ t, step s = .next t ∧ (∀ k, k < bytes.length → t.mem.read (base + k) = bytes.getD k 0) ∧ t.env = rest ∧
      s.ChangesOnly t (.env :: bytesFrom base bytes.length)

/-- LOAD of bytes that would overrun memory writes nothing and is no fault of the block (60_exceptions.md R258; D20). -/
def Obligations.OverrunningLoadWritesNothing : Prop :=
  ∀ (s : State) (base : Nat) (bytes : List Byte) (rest : List Operation), s.env = .load base bytes :: rest →
    base + bytes.length > 4096 → loadFits base bytes.length = false ∧
    ∃ t, step s = .next t ∧ t.env = rest ∧ s.ChangesOnly t [.env]

/-! ### Immediate and random instructions -/

/-- LD Vx, kk (R160; its pattern is the spec's decision D4). -/
def Obligations.LdImmLoadsItsByte : Prop :=
  ∀ (x : RegNum) (kk : Byte) (s : State), encode (.ldImm x kk) = 0x6#4 ++ x ++ kk ∧
    ∃ t, exec (.ldImm x kk) s = .next t ∧ t.reg x = kk ∧ s.ChangesOnly t [.reg x]

/-- ADD Vx, kk: 8-bit wraparound, no flag write, whichever register `x` is (R161). -/
def Obligations.AddImmWrapsWithoutFlag : Prop :=
  ∀ (x : RegNum) (kk : Byte) (s : State), encode (.addImm x kk) = 0x7#4 ++ x ++ kk ∧
    ∃ t, exec (.addImm x kk) s = .next t ∧ (t.reg x).toNat = ((s.reg x).toNat + kk.toNat) % 256 ∧
      s.ChangesOnly t [.reg x]

/-- LD I, nnn: the four high bits of I become 0 (R162; its pattern is the spec's decision D4). -/
def Obligations.LdISetsTheAddress : Prop :=
  ∀ (nnn : Addr) (s : State), encode (.ldI nnn) = 0xA#4 ++ nnn ∧
    ∃ t, exec (.ldI nnn) s = .next t ∧ t.i.toNat = nnn.toNat ∧ s.ChangesOnly t [.i]

/-- RND Vx, kk: RAND AND kk for every RAND the surrounding system gives; with no STEP pending RAND is a free value (R163;
its pattern is the spec's decision D4; log 1). -/
def Obligations.RndMasksTheRandomByte : Prop :=
  ∀ (x : RegNum) (kk : Byte) (s : State), encode (.rnd x kk) = 0xC#4 ++ x ++ kk ∧
    ∃ t, exec (.rnd x kk) s = .next t ∧ s.ChangesOnly t [.reg x] ∧
      (∀ keys rand rest, s.env = .step keys rand :: rest → t.reg x = rand &&& kk) ∧
      (s.env = [] → t.reg x = Config.freeRand s.sampled &&& kk)

/-! ### Register-to-register arithmetic and logic -/

/-- LD Vx, Vy (R181). -/
def Obligations.LdRegCopies : Prop :=
  ∀ (x y : RegNum) (s : State), encode (.ldReg x y) = 0x8#4 ++ x ++ y ++ 0x0#4 ∧
    ∃ t, exec (.ldReg x y) s = .next t ∧ t.reg x = s.reg y ∧ s.ChangesOnly t [.reg x]

/-- OR, AND, XOR, bit by bit; VF is left alone unless it is Vx (R182 to R184; that VF is unchanged is the spec's decision
D11). -/
def Obligations.LogicCombinesBitwise : Prop :=
  ∀ (x y : RegNum) (s : State),
    (∃ t, exec (.or x y) s = .next t ∧ s.ChangesOnly t [.reg x] ∧
      ∀ b < 8, (t.reg x).getLsbD b = ((s.reg x).getLsbD b || (s.reg y).getLsbD b)) ∧
    (∃ t, exec (.and x y) s = .next t ∧ s.ChangesOnly t [.reg x] ∧
      ∀ b < 8, (t.reg x).getLsbD b = ((s.reg x).getLsbD b && (s.reg y).getLsbD b)) ∧
    (∃ t, exec (.xor x y) s = .next t ∧ s.ChangesOnly t [.reg x] ∧
      ∀ b < 8, (t.reg x).getLsbD b = ((s.reg x).getLsbD b ^^ (s.reg y).getLsbD b))

/-- ADD Vx, Vy: the sum modulo 256, VF the carry of the true sum, also when `y` is VF; with `x` = 15 VF ends as the flag
(R185, R180; the case `x` = 15 is the spec's decision D10). -/
def Obligations.AddRegAddsAndCarries : Prop :=
  ∀ (x y : RegNum) (s : State),
    ∃ t, exec (.addReg x y) s = .next t ∧ s.ChangesOnly t [.reg x, .reg 0xF] ∧
      (x ≠ 0xF → (t.reg x).toNat = ((s.reg x).toNat + (s.reg y).toNat) % 256) ∧
      t.reg 0xF = if (s.reg x).toNat + (s.reg y).toNat > 255 then 0x01 else 0x00

/-- SUB and SUBN: the difference modulo 256, VF = 1 when no borrow is needed, equality included; with `x` = 15 VF ends as
the flag (R186, R188, R180; the case `x` = 15 is the spec's decision D10). -/
def Obligations.SubtractionsFlagNoBorrow : Prop :=
  ∀ (x y : RegNum) (s : State),
    (∃ t, exec (.sub x y) s = .next t ∧ s.ChangesOnly t [.reg x, .reg 0xF] ∧
      (x ≠ 0xF → (t.reg x).toNat = ((s.reg x).toNat + 256 - (s.reg y).toNat) % 256) ∧
      t.reg 0xF = if (s.reg x).toNat ≥ (s.reg y).toNat then 0x01 else 0x00) ∧
    (∃ t, exec (.subn x y) s = .next t ∧ s.ChangesOnly t [.reg x, .reg 0xF] ∧
      (x ≠ 0xF → (t.reg x).toNat = ((s.reg y).toNat + 256 - (s.reg x).toNat) % 256) ∧
      t.reg 0xF = if (s.reg y).toNat ≥ (s.reg x).toNat then 0x01 else 0x00)

/-- SHR and SHL shift Vx by one and put the bit shifted out into VF, the same for every `y`; with `x` = 15 VF ends as the
flag (R187, R189, R99, R180; the case `x` = 15 is the spec's decision D10). -/
def Obligations.ShiftsReportTheBitOut : Prop :=
  ∀ (x y : RegNum) (s : State),
    (∃ t, exec (.shr x y) s = .next t ∧ s.ChangesOnly t [.reg x, .reg 0xF] ∧
      (x ≠ 0xF → (t.reg x).toNat = (s.reg x).toNat / 2) ∧ (t.reg 0xF).toNat = (s.reg x).toNat % 2) ∧
    (∃ t, exec (.shl x y) s = .next t ∧ s.ChangesOnly t [.reg x, .reg 0xF] ∧
      (x ≠ 0xF → (t.reg x).toNat = (s.reg x).toNat * 2 % 256) ∧ (t.reg 0xF).toNat = (s.reg x).toNat / 128)

/-! ### Control transfer -/

/-- SE and SNE with an immediate: PC goes on by 2 more exactly when the comparison says so (R144, R145, R140; the patterns
are the spec's decision D4). -/
def Obligations.SkipsOnImmediate : Prop :=
  ∀ (x : RegNum) (kk : Byte) (s : State),
    (∃ t, exec (.seImm x kk) s = .next t ∧ t.pc = (if s.reg x = kk then s.pc + 2 else s.pc) ∧
      s.ChangesOnly t [.pc]) ∧
    (∃ t, exec (.sneImm x kk) s = .next t ∧ t.pc = (if s.reg x = kk then s.pc else s.pc + 2) ∧
      s.ChangesOnly t [.pc])

/-- SE and SNE with two registers (R146, R147, R140; the patterns are the spec's decision D4). -/
def Obligations.SkipsOnRegister : Prop :=
  ∀ (x y : RegNum) (s : State),
    (∃ t, exec (.seReg x y) s = .next t ∧ t.pc = (if s.reg x = s.reg y then s.pc + 2 else s.pc) ∧
      s.ChangesOnly t [.pc]) ∧
    (∃ t, exec (.sneReg x y) s = .next t ∧ t.pc = (if s.reg x = s.reg y then s.pc else s.pc + 2) ∧
      s.ChangesOnly t [.pc])

/-- JP nnn and JP V0, nnn: the target is loaded as it stands, `V0 + nnn` is not reduced to 12 bits (R142, R148, R140; the
patterns are the spec's decision D4, the plain sum D26). -/
def Obligations.JumpsLoadTheirTarget : Prop :=
  ∀ (nnn : Addr) (s : State),
    (∃ t, exec (.jp nnn) s = .next t ∧ t.pc.toNat = nnn.toNat ∧ s.ChangesOnly t [.pc]) ∧
    (∃ t, exec (.jpV0 nnn) s = .next t ∧ t.pc.toNat = (s.reg 0x0).toNat + nnn.toNat ∧ s.ChangesOnly t [.pc])

/-- CALL with fewer than 16 return addresses held pushes the advanced PC and jumps (R143, R28; the pattern is the spec's
decision D4, the representation of the stack D25). -/
def Obligations.CallPushesTheNextAddress : Prop :=
  ∀ (nnn : Addr) (s : State) (h : s.sp.val < 16),
    ∃ t, exec (.call nnn) s = .next t ∧ t.pc.toNat = nnn.toNat ∧ t.sp.val = s.sp.val + 1 ∧
      t.stack.get ⟨s.sp.val, h⟩ = s.pc ∧ s.ChangesOnly t [.pc, .sp, .stackCell ⟨s.sp.val, h⟩]

/-- RET with a return address held pops it into PC (R141, R28; the pattern is the spec's decision D4, the representation of
the stack D25; that the popped cell keeps its value is the model's: log 6). -/
def Obligations.RetPopsTheReturnAddress : Prop :=
  ∀ (s : State) (k : Fin 16), s.sp.val = k.val + 1 →
    ∃ t, exec .ret s = .next t ∧ t.pc = s.stack.get k ∧ t.sp.val = k.val ∧ s.ChangesOnly t [.pc, .sp]

/-- The 17th CALL and the RET with nothing to return to fault: nothing is pushed or popped, PC stays past the instruction
(R141, R143, R243, R244; the fault record is the spec's decision D15, the state it leaves D16; the recorded words 2nnn and
00EE are D4, log 5). -/
def Obligations.StackFaultsLeaveTheStack : Prop :=
  ∀ (nnn : Addr) (s : State),
    (s.sp.val = 16 → ∃ t, exec (.call nnn) s = .next t ∧
      t.Records .stackOverflow (s.pc - 2) (0x2#4 ++ nnn) ∧ s.ChangesOnly t [.faultRecord]) ∧
    (s.sp.val = 0 → ∃ t, exec .ret s = .next t ∧
      t.Records .stackUnderflow (s.pc - 2) 0x00EE ∧ s.ChangesOnly t [.faultRecord])

/-- A CALL and the RET of its subroutine, wherever PC stands by then, resume after the CALL with the depth as before (R141,
R143: "RET resumes after the CALL and not at it"; the representation of the stack is the spec's decision D25). -/
def Obligations.ReturnUndoesCall : Prop :=
  ∀ (nnn : Addr) (s : State) (h : s.sp.val < 16) (pc : Word),
    ∃ t u, exec (.call nnn) s = .next t ∧ exec .ret { t with pc := pc } = .next u ∧ u.pc = s.pc ∧
      s.ChangesOnly u [.stackCell ⟨s.sp.val, h⟩]

/-! ### Display -/

/-- CLS clears every pixel and touches nothing else, VF neither (R170). -/
def Obligations.ClsClearsEveryPixel : Prop :=
  ∀ s : State, encode .cls = 0x00E0 ∧
    ∃ t, exec .cls s = .next t ∧ (∀ r c, t.pixel r c = false) ∧ s.ChangesOnly t allRows

/-- DRW, pixel by pixel: each pixel of the display is toggled exactly where the sprite, wrapped in both directions, has a set
pixel; VF is 1 when a set pixel was hit and else 0, also with `n` = 0, where nothing is drawn (R171, R172, R173; the
pattern is the spec's decision D4, the bounds D8, the OR over the rows and `n` = 0 D23). -/
def Obligations.DrwTogglesTheSpritesPixels : Prop :=
  ∀ (x y : RegNum) (n : Nibble) (s : State), n.toNat = 0 ∨ s.i.toNat + n.toNat - 1 ≤ 4095 →
    ∃ t, exec (.drw x y n) s = .next t ∧
      (∀ r c, t.pixel r c ≠ s.pixel r c ↔ s.SpritePixel x y n r c) ∧
      (t.reg 0xF = 0x00 ∨ t.reg 0xF = 0x01) ∧
      (t.reg 0xF = 0x01 ↔ ∃ r c, s.pixel r c = true ∧ s.SpritePixel x y n r c) ∧
      s.ChangesOnly t (.reg 0xF :: allRows)

/-- The source's three properties of DRW (R174): drawing twice restores the display, and the second draw reports a collision
exactly when the first set a pixel; at Vx = 60 each row of the sprite has its left half at columns 60 to 63 and its right half
at columns 0 to 3 of the same display row, and the other rows stay; at Vy = 30 five rows are the rows 30, 31, 0, 1, 2. That a
sprite inside memory is drawn is the spec's decision D8, the outcome for `n` = 0 its decision D23 (log 7). -/
def Obligations.DrawTwiceAndWraparound : Prop :=
  (∀ (x y : RegNum) (n : Nibble) (s : State), x ≠ 0xF → y ≠ 0xF → n.toNat = 0 ∨ s.i.toNat + n.toNat - 1 ≤ 4095 →
    ∃ t u, exec (.drw x y n) s = .next t ∧ exec (.drw x y n) t = .next u ∧ (∀ r, u.fb.get r = s.fb.get r) ∧
      (u.reg 0xF = 0x01 ↔ ∃ r c, s.pixel r c = false ∧ t.pixel r c = true)) ∧
  (∀ (x y : RegNum) (n : Nibble) (s : State), s.reg x = 60 → n.toNat = 0 ∨ s.i.toNat + n.toNat - 1 ≤ 4095 →
    ∃ t, exec (.drw x y n) s = .next t ∧
      (∀ r : Fin 32, (∀ p < n.toNat, r.val ≠ ((s.reg y).toNat + p) % 32) → t.fb.get r = s.fb.get r) ∧
      (∀ p < n.toNat, ∀ r : Fin 32, r.val = ((s.reg y).toNat + p) % 32 → ∀ c : Fin 64,
        t.pixel r c = (s.pixel r c ^^
          (if 60 ≤ c.val then (s.mem.read (s.i.toNat + p)).getLsbD (7 - (c.val - 60))
           else if c.val < 4 then (s.mem.read (s.i.toNat + p)).getLsbD (3 - c.val) else false)))) ∧
  (∀ (x y : RegNum) (s : State), s.reg y = 30 → s.i.toNat + 4 ≤ 4095 →
    ∃ t, exec (.drw x y 5) s = .next t ∧
      (∀ r : Fin 32, r.val ∉ [30, 31, 0, 1, 2] → t.fb.get r = s.fb.get r) ∧
      (∀ k : Fin 5, ∀ r : Fin 32, r.val = (30 + k.val) % 32 → ∀ c : Fin 64,
        t.pixel r c = (s.pixel r c ^^ (spriteLine (s.mem.read (s.i.toNat + k.val)) (s.reg x)).getLsbD (63 - c.val))))

/-! ### Keypad -/

/-- SKP and SKNP ask for the key whose code is the value of Vx: KEYS_HELD as the pending STEP gives it, and no key above 15
is held (R200, R201, R202; that a code above 15 is not held is the spec's decision D13). -/
def Obligations.KeySkipsAskTheHeldKeys : Prop :=
  ∀ (x : RegNum) (keys : BitVec 16) (rand : Byte) (rest : List Operation) (s : State), s.env = .step keys rand :: rest →
    (∃ t, exec (.skp x) s = .next t ∧ s.ChangesOnly t [.pc] ∧
      t.pc = if (s.reg x).toNat < 16 ∧ keys.getLsbD (s.reg x).toNat = true then s.pc + 2 else s.pc) ∧
    (∃ t, exec (.sknp x) s = .next t ∧ s.ChangesOnly t [.pc] ∧
      t.pc = if (s.reg x).toNat < 16 ∧ keys.getLsbD (s.reg x).toNat = true then s.pc else s.pc + 2)

/-- SKP and SKNP complete whatever is pending, and exactly one of them skips (R202: "The exact complement of SKP"). -/
def Obligations.KeySkipsAreComplements : Prop :=
  ∀ (x : RegNum) (s : State), ∃ t u, exec (.skp x) s = .next t ∧ exec (.sknp x) s = .next u ∧
    s.ChangesOnly t [.pc] ∧ s.ChangesOnly u [.pc] ∧
    (t.pc = s.pc + 2 ∧ u.pc = s.pc ∨ t.pc = s.pc ∧ u.pc = s.pc + 2)

/-- LD Vx, K: with no key queued PC goes back to the instruction and nothing else changes; else the oldest key is delivered
and the whole queue is emptied (R203). -/
def Obligations.WaitForKeyRewindsOrDelivers : Prop :=
  ∀ (x : RegNum) (s : State), encode (.ldVxK x) = 0xF#4 ++ x ++ 0x0A#8 ∧
    (s.keyq = [] → ∃ t, exec (.ldVxK x) s = .next t ∧ t.pc = s.pc - 2 ∧ s.ChangesOnly t [.pc]) ∧
    (∀ k rest, s.keyq = k :: rest → ∃ t, exec (.ldVxK x) s = .next t ∧ (t.reg x).toNat = k.toNat ∧ t.keyq = [] ∧
      s.ChangesOnly t [.reg x, .keyq])

/-! ### Timers -/

/-- The three timer instructions: Vx := DT, DT := Vx, ST := Vx (R210, R211, R212). -/
def Obligations.TimerTransfers : Prop :=
  ∀ (x : RegNum) (s : State),
    encode (.ldVxDt x) = 0xF#4 ++ x ++ 0x07#8 ∧ encode (.ldDtVx x) = 0xF#4 ++ x ++ 0x15#8 ∧
    encode (.ldStVx x) = 0xF#4 ++ x ++ 0x18#8 ∧
    (∃ t, exec (.ldVxDt x) s = .next t ∧ t.reg x = s.dt ∧ s.ChangesOnly t [.reg x]) ∧
    (∃ t, exec (.ldDtVx x) s = .next t ∧ t.dt = s.reg x ∧ s.ChangesOnly t [.dt]) ∧
    (∃ t, exec (.ldStVx x) s = .next t ∧ t.st = s.reg x ∧ s.ChangesOnly t [.st])

/-! ### Address register and memory -/

/-- ADD I, Vx: modulo 65536, no flag (R220; the wraparound is the spec's decision D9). -/
def Obligations.AddIWrapsAt16Bits : Prop :=
  ∀ (x : RegNum) (s : State),
    ∃ t, exec (.addI x) s = .next t ∧ t.i.toNat = (s.i.toNat + (s.reg x).toNat) % 65536 ∧ s.ChangesOnly t [.i]

/-- LD F, Vx: I := 5 × Vx, the whole byte multiplied (R221). -/
def Obligations.LdFMultipliesByFive : Prop :=
  ∀ (x : RegNum) (s : State), encode (.ldF x) = 0xF#4 ++ x ++ 0x29#8 ∧
    ∃ t, exec (.ldF x) s = .next t ∧ t.i.toNat = 5 * (s.reg x).toNat ∧ s.ChangesOnly t [.i]

/-- LD B, Vx with I of at most 4093: hundreds, tens and units to MEM[I], MEM[I+1], MEM[I+2] (R222; the bound is the spec's
decision D8). -/
def Obligations.LdBStoresDecimalDigits : Prop :=
  ∀ (x : RegNum) (s : State), s.mem.wf → s.i.toNat + 2 ≤ 4095 →
    ∃ t, exec (.ldB x) s = .next t ∧ (t.mem.read s.i.toNat).toNat = (s.reg x).toNat / 100 ∧
      (t.mem.read (s.i.toNat + 1)).toNat = (s.reg x).toNat / 10 % 10 ∧
      (t.mem.read (s.i.toNat + 2)).toNat = (s.reg x).toNat % 10 ∧ s.ChangesOnly t (bytesFrom s.i.toNat 3)

/-- LD [I], Vx stores V0 to Vx from I on, V0 first, and leaves I alone (R223; the bound is the spec's decision D8, I
unchanged D12). -/
def Obligations.LdMemVxStoresRegisters : Prop :=
  ∀ (x : RegNum) (s : State), s.mem.wf → s.i.toNat + x.toNat ≤ 4095 →
    ∃ t, exec (.ldMemVx x) s = .next t ∧ (∀ r : RegNum, r.toNat ≤ x.toNat → t.mem.read (s.i.toNat + r.toNat) = s.reg r) ∧
      s.ChangesOnly t (bytesFrom s.i.toNat (x.toNat + 1))

/-- LD Vx, [I] loads V0 to Vx from I on and leaves the registers above Vx and I alone (R224; the bound is the spec's
decision D8, I unchanged D12). -/
def Obligations.LdVxMemLoadsRegisters : Prop :=
  ∀ (x : RegNum) (s : State), s.i.toNat + x.toNat ≤ 4095 →
    ∃ t, exec (.ldVxMem x) s = .next t ∧ (∀ r : RegNum, r.toNat ≤ x.toNat → t.reg r = s.mem.read (s.i.toNat + r.toNat)) ∧
      s.ChangesOnly t ((List.range (x.toNat + 1)).map (fun k => Part.reg (BitVec.ofNat 4 k)))

/-- LD [I], Vx and then LD Vx, [I] with the same `x` and I restore V0 to Vx, whatever the registers held in between (R224;
the bound is the spec's decision D8, I unchanged D12). -/
def Obligations.StoreThenLoadRestoresRegisters : Prop :=
  ∀ (x : RegNum) (s : State) (between : Regs), s.mem.wf → s.i.toNat + x.toNat ≤ 4095 →
    ∃ t u, exec (.ldMemVx x) s = .next t ∧ exec (.ldVxMem x) { t with v := between } = .next u ∧
      ∀ r : RegNum, r.toNat ≤ x.toNat → u.reg r = s.reg r

/-- DRW, LD_B, LD_MEM_VX and LD_VX_MEM whose last byte would lie above address 4095 raise MemoryOutOfBounds and transfer
nothing (R225, R246, R67; the fault is the spec's decision D8, its record D15, PC kept and nothing else changed D16; DRW's
recorded word Dxyn is D4, log 5). -/
def Obligations.AccessAboveMemoryFaults : Prop :=
  ∀ (x y : RegNum) (n : Nibble) (s : State),
    (1 ≤ n.toNat → s.i.toNat + n.toNat - 1 > 4095 → ∃ t, exec (.drw x y n) s = .next t ∧
      t.Records .memoryOutOfBounds (s.pc - 2) (0xD#4 ++ x ++ y ++ n) ∧ s.ChangesOnly t [.faultRecord]) ∧
    (s.i.toNat + 2 > 4095 → ∃ t, exec (.ldB x) s = .next t ∧
      t.Records .memoryOutOfBounds (s.pc - 2) (0xF#4 ++ x ++ 0x33#8) ∧ s.ChangesOnly t [.faultRecord]) ∧
    (s.i.toNat + x.toNat > 4095 → ∃ t, exec (.ldMemVx x) s = .next t ∧
      t.Records .memoryOutOfBounds (s.pc - 2) (0xF#4 ++ x ++ 0x55#8) ∧ s.ChangesOnly t [.faultRecord]) ∧
    (s.i.toNat + x.toNat > 4095 → ∃ t, exec (.ldVxMem x) s = .next t ∧
      t.Records .memoryOutOfBounds (s.pc - 2) (0xF#4 ++ x ++ 0x65#8) ∧ s.ChangesOnly t [.faultRecord])

/-! ### The state of the block -/

/-- The block is all the state there is: what an operation leaves of the block depends on the block and on the operation with
its inputs, on nothing else, and of the surrounding system an operation leaves what it performs after it (10_state.md R20, R34,
00_scope.md R9; the surrounding system's record is the model's: log 1, log 2). -/
def Obligations.OperationsSeeOnlyTheBlock : Prop :=
  ∀ (s s' : State) (op : Operation) (rest rest' : List Operation), s.toBlock = s'.toBlock → s.env = op :: rest →
    s'.env = op :: rest' →
    ∃ t t', step s = .next t ∧ step s' = .next t' ∧ t.toBlock = t'.toBlock ∧ t.env = rest ∧ t'.env = rest'
end

