-- ==== Sys2Proof/Laws/Decode.lean ====
section
/-! SUPPORT. The fields of a word and the words built from fields, as numbers: what each format's word decodes by
(30_encoding.md R91, R92), and what each dispatch mask leaves of a word (R94). -/

namespace Sys2Proof

/-! ### Fields as numbers -/

theorem fieldOp_toNat (w : Word) : (fieldOp w).toNat = w.toNat / 4096 := by
  have := w.isLt
  simp [fieldOp, Nat.shiftRight_eq_div_pow]; omega

theorem fieldX_toNat (w : Word) : (fieldX w).toNat = w.toNat / 256 % 16 := by
  simp [fieldX, Nat.shiftRight_eq_div_pow]

theorem fieldY_toNat (w : Word) : (fieldY w).toNat = w.toNat / 16 % 16 := by
  simp [fieldY, Nat.shiftRight_eq_div_pow]

theorem fieldN_toNat (w : Word) : (fieldN w).toNat = w.toNat % 16 := by simp [fieldN]

theorem fieldKk_toNat (w : Word) : (fieldKk w).toNat = w.toNat % 256 := by simp [fieldKk]

theorem fieldNnn_toNat (w : Word) : (fieldNnn w).toNat = w.toNat % 4096 := by simp [fieldNnn]

/-! ### Words as numbers -/

theorem toNat_append_eq {m k : Nat} (a : BitVec m) (b : BitVec k) : (a ++ b).toNat = a.toNat * 2 ^ k + b.toNat := by
  rw [BitVec.toNat_append, ← Nat.shiftLeft_add_eq_or_of_lt b.isLt, Nat.shiftLeft_eq]

/-- The number of a word of format A. -/
theorem wordA_toNat (o : BitVec 4) (nnn : Addr) : (o ++ nnn : Word).toNat = o.toNat * 4096 + nnn.toNat :=
  toNat_append_eq o nnn

/-- The number of a word of format RI or RX. -/
theorem wordRI_toNat (o : BitVec 4) (x : RegNum) (kk : Byte) :
    (o ++ x ++ kk : Word).toNat = o.toNat * 4096 + x.toNat * 256 + kk.toNat := by
  have h : (o ++ x ++ kk : Word).toNat = _ := toNat_append_eq (o ++ x) kk
  rw [h, toNat_append_eq o x]; omega

/-- The number of a word of format RRN or RR. -/
theorem wordRRN_toNat (o : BitVec 4) (x y : RegNum) (n : Nibble) :
    (o ++ x ++ y ++ n : Word).toNat = o.toNat * 4096 + x.toNat * 256 + y.toNat * 16 + n.toNat := by
  have h : (o ++ x ++ y ++ n : Word).toNat = _ := toNat_append_eq (o ++ x ++ y) n
  rw [h, toNat_append_eq (o ++ x) y, toNat_append_eq o x]; omega

/-! ### The fields of a word built from fields -/

@[simp] theorem fieldOp_wordA (o : BitVec 4) (nnn : Addr) : fieldOp (o ++ nnn) = o := by
  apply BitVec.eq_of_toNat_eq; rw [fieldOp_toNat, wordA_toNat]; omega

@[simp] theorem fieldNnn_wordA (o : BitVec 4) (nnn : Addr) : fieldNnn (o ++ nnn) = nnn := by
  apply BitVec.eq_of_toNat_eq; rw [fieldNnn_toNat, wordA_toNat]; omega

@[simp] theorem fieldOp_wordRI (o : BitVec 4) (x : RegNum) (kk : Byte) : fieldOp (o ++ x ++ kk) = o := by
  apply BitVec.eq_of_toNat_eq; rw [fieldOp_toNat, wordRI_toNat]; omega

@[simp] theorem fieldX_wordRI (o : BitVec 4) (x : RegNum) (kk : Byte) : fieldX (o ++ x ++ kk) = x := by
  apply BitVec.eq_of_toNat_eq; rw [fieldX_toNat, wordRI_toNat]; omega

@[simp] theorem fieldKk_wordRI (o : BitVec 4) (x : RegNum) (kk : Byte) : fieldKk (o ++ x ++ kk) = kk := by
  apply BitVec.eq_of_toNat_eq; rw [fieldKk_toNat, wordRI_toNat]; omega

@[simp] theorem fieldOp_wordRRN (o : BitVec 4) (x y : RegNum) (n : Nibble) : fieldOp (o ++ x ++ y ++ n) = o := by
  apply BitVec.eq_of_toNat_eq; rw [fieldOp_toNat, wordRRN_toNat]; omega

@[simp] theorem fieldX_wordRRN (o : BitVec 4) (x y : RegNum) (n : Nibble) : fieldX (o ++ x ++ y ++ n) = x := by
  apply BitVec.eq_of_toNat_eq; rw [fieldX_toNat, wordRRN_toNat]; omega

@[simp] theorem fieldY_wordRRN (o : BitVec 4) (x y : RegNum) (n : Nibble) : fieldY (o ++ x ++ y ++ n) = y := by
  apply BitVec.eq_of_toNat_eq; rw [fieldY_toNat, wordRRN_toNat]; omega

@[simp] theorem fieldN_wordRRN (o : BitVec 4) (x y : RegNum) (n : Nibble) : fieldN (o ++ x ++ y ++ n) = n := by
  apply BitVec.eq_of_toNat_eq; rw [fieldN_toNat, wordRRN_toNat]; omega

/-! ### A word is its fields -/

theorem word_eq_opNnn (w : Word) : w = (fieldOp w ++ fieldNnn w : Word) := by
  apply BitVec.eq_of_toNat_eq; rw [wordA_toNat, fieldOp_toNat, fieldNnn_toNat]; omega

theorem word_eq_opXKk (w : Word) : w = (fieldOp w ++ fieldX w ++ fieldKk w : Word) := by
  apply BitVec.eq_of_toNat_eq; rw [wordRI_toNat, fieldOp_toNat, fieldX_toNat, fieldKk_toNat]; omega

theorem word_eq_opXYN (w : Word) : w = (fieldOp w ++ fieldX w ++ fieldY w ++ fieldN w : Word) := by
  apply BitVec.eq_of_toNat_eq
  rw [wordRRN_toNat, fieldOp_toNat, fieldX_toNat, fieldY_toNat, fieldN_toNat]; omega

/-! ### What a dispatch mask leaves of a word (R94) -/

theorem wordA_and (a c : BitVec 4) (b d : BitVec 12) : ((a ++ b : Word) &&& (c ++ d : Word)) = ((a &&& c) ++ (b &&& d) : Word) :=
  BitVec.and_append (x₁ := a) (x₂ := c) (y₁ := b) (y₂ := d)

theorem wordRI_and (a c b d : BitVec 4) (e f : BitVec 8) :
    ((a ++ b ++ e : Word) &&& (c ++ d ++ f : Word)) = ((a &&& c) ++ (b &&& d) ++ (e &&& f) : Word) := by
  have h := BitVec.and_append (x₁ := a ++ b) (x₂ := c ++ d) (y₁ := e) (y₂ := f)
  rw [BitVec.and_append (x₁ := a) (x₂ := c) (y₁ := b) (y₂ := d)] at h
  exact h

theorem wordRRN_and (a c b d e f g h : BitVec 4) :
    ((a ++ b ++ e ++ g : Word) &&& (c ++ d ++ f ++ h : Word)) = ((a &&& c) ++ (b &&& d) ++ (e &&& f) ++ (g &&& h) : Word) := by
  have t := BitVec.and_append (x₁ := a ++ b ++ e) (x₂ := c ++ d ++ f) (y₁ := g) (y₂ := h)
  rw [BitVec.and_append (x₁ := a ++ b) (x₂ := c ++ d) (y₁ := e) (y₂ := f),
    BitVec.and_append (x₁ := a) (x₂ := c) (y₁ := b) (y₂ := d)] at t
  exact t

theorem nibble_and_F (a : BitVec 4) : a &&& 0xF#4 = a := BitVec.and_allOnes

theorem byte_and_FF (a : BitVec 8) : a &&& 0xFF#8 = a := BitVec.and_allOnes

theorem and_maskTop (w : Word) : w &&& 0xF000 = (fieldOp w ++ 0#12 : Word) := by
  conv => lhs; lhs; rw [word_eq_opNnn w]
  rw [show (0xF000 : Word) = (0xF#4 ++ 0#12 : Word) from rfl, wordA_and, nibble_and_F, BitVec.and_zero]

theorem and_maskTopLow (w : Word) : w &&& 0xF00F = (fieldOp w ++ 0#4 ++ 0#4 ++ fieldN w : Word) := by
  conv => lhs; lhs; rw [word_eq_opXYN w]
  rw [show (0xF00F : Word) = (0xF#4 ++ 0#4 ++ 0#4 ++ 0xF#4 : Word) from rfl, wordRRN_and,
    nibble_and_F, nibble_and_F, BitVec.and_zero, BitVec.and_zero]

theorem and_maskTopByte (w : Word) : w &&& 0xF0FF = (fieldOp w ++ 0#4 ++ fieldKk w : Word) := by
  conv => lhs; lhs; rw [word_eq_opXKk w]
  rw [show (0xF0FF : Word) = (0xF#4 ++ 0#4 ++ 0xFF#8 : Word) from rfl, wordRI_and,
    nibble_and_F, byte_and_FF, BitVec.and_zero]

theorem and_maskAll (w : Word) : w &&& 0xFFFF = w := by
  rw [show (0xFFFF : Word) = BitVec.allOnes 16 from rfl]; exact BitVec.and_allOnes

/-! ### Bytes -/

@[simp] theorem wordOfBytes_bytesOfWord (w : Word) : wordOfBytes (w.extractLsb' 8 8) (w.extractLsb' 0 8) = w := by
  apply BitVec.eq_of_toNat_eq
  have h : (wordOfBytes (w.extractLsb' 8 8) (w.extractLsb' 0 8)).toNat = _ :=
    toNat_append_eq (w.extractLsb' 8 8) (w.extractLsb' 0 8)
  have := w.isLt
  rw [h]
  simp [Nat.shiftRight_eq_div_pow]; omega

/-- The decoder reads from the bytes of a word what it reads from the word (20_memory.md R64). -/
theorem decodeBytes_pair (hi lo : Byte) (rest : List Byte) (i : Instr) :
    decodeBytes (hi :: lo :: rest) = .ok (i, rest) ↔ decode (wordOfBytes hi lo) = some i := by
  simp only [decodeBytes]
  split <;> simp_all

end Sys2Proof
end

