-- ==== Sys2Proof/Laws/Memory.lean ====
section
/-! SUPPORT. What the memory operations do, once: a write is read back and leaves every other byte alone, and every
operation keeps the canonical form (20_memory.md R62, R63). -/

namespace Sys2Proof.Machine

/-! ### One byte -/

theorem Memory.read_cell_append (a : Nat) (b : Byte) (m : Memory) (h : b = Memory.initial a → m.read a = b) :
    Memory.read (Memory.cell a b ++ m) a = b := by
  unfold Memory.cell
  split
  · simpa using h ‹_›
  · simp [Memory.read]

theorem Memory.read_cell_append_ne {a c : Nat} (b : Byte) (m : Memory) (h : c ≠ a) :
    Memory.read (Memory.cell a b ++ m) c = m.read c := by
  unfold Memory.cell
  split
  · rfl
  · simp [Memory.read, h]

/-- A write leaves every other byte alone; this holds of every memory, canonical or not. -/
theorem Memory.read_write_ne {a c : Nat} (m : Memory) (b : Byte) (h : c ≠ a) : (m.write a b).read c = m.read c := by
  induction m with
  | nil => simpa [Memory.write] using Memory.read_cell_append_ne b [] h
  | cons hd tl ih =>
    obtain ⟨a', b'⟩ := hd
    simp only [Memory.write]
    split
    · exact Memory.read_cell_append_ne b _ h
    · split
      · rename_i h₂
        rw [Memory.read_cell_append_ne b _ h, Memory.read, if_neg (h₂ ▸ h)]
      · simp only [Memory.read]; split
        · rfl
        · exact ih

/-- Addresses that rise above `a` do not list `a`. -/
theorem Memory.read_eq_initial {a : Nat} {m : Memory} (h : ∀ c ∈ m, a < c.1) : m.read a = Memory.initial a := by
  induction m with
  | nil => rfl
  | cons hd tl ih =>
    obtain ⟨a', b'⟩ := hd
    have := h (a', b') (by simp)
    rw [Memory.read, if_neg (by simp at this; omega)]
    exact ih fun c hc => h c (by simp [hc])

theorem Memory.wf_tail {c : Host.Cell} {m : Memory} (h : Memory.wf (c :: m)) : m.wf :=
  ⟨(List.pairwise_cons.mp h.1).2, fun d hd => h.2 d (by simp [hd])⟩

theorem Memory.wf_above {c : Host.Cell} {m : Memory} (h : Memory.wf (c :: m)) : ∀ d ∈ m, c.1 < d.1 := fun d hd =>
  (List.pairwise_cons.mp h.1).1 d.1 (List.mem_map.mpr ⟨d, hd, rfl⟩)

/-- Reading a byte just written gives the value written. -/
theorem Memory.read_write_same {m : Memory} (hm : m.wf) (a : Nat) (b : Byte) : (m.write a b).read a = b := by
  induction m with
  | nil => simpa [Memory.write] using Memory.read_cell_append a b [] fun h => by simp [Memory.read, h]
  | cons hd tl ih =>
    obtain ⟨a', b'⟩ := hd
    have above := Memory.wf_above hm
    simp only [Memory.write]
    split
    · rename_i h₁
      refine Memory.read_cell_append a b _ fun h => ?_
      rw [Memory.read_eq_initial, h]
      intro c hc
      rcases List.mem_cons.mp hc with rfl | hc
      · exact h₁
      · exact lt_trans h₁ (above c hc)
    · split
      · rename_i h₂
        exact Memory.read_cell_append a b _ fun h => by rw [Memory.read_eq_initial (by simpa [h₂] using above), h]
      · rename_i h₂
        rw [Memory.read, if_neg h₂]
        exact ih (Memory.wf_tail hm)

/-- What a read sees after a write. -/
theorem Memory.read_write {m : Memory} (hm : m.wf) (a c : Nat) (b : Byte) :
    (m.write a b).read c = if c = a then b else m.read c := by
  split
  · subst c; exact Memory.read_write_same hm a b
  · exact Memory.read_write_ne m b ‹_›

/-! ### The canonical form -/

theorem Memory.mem_write {m : Memory} {a : Nat} {b : Byte} {c : Host.Cell} (h : c ∈ m.write a b) :
    c ∈ m ∨ c = (a, b) ∧ b ≠ Memory.initial a := by
  have cell {c : Host.Cell} (h : c ∈ Memory.cell a b) : c = (a, b) ∧ b ≠ Memory.initial a := by
    unfold Memory.cell at h
    split at h <;> simp_all
  induction m with
  | nil => exact .inr (cell h)
  | cons hd tl ih =>
    obtain ⟨a', b'⟩ := hd
    simp only [Memory.write] at h
    split at h
    · exact (List.mem_append.mp h).elim (fun h => .inr (cell h)) .inl
    · split at h
      · exact (List.mem_append.mp h).elim (fun h => .inr (cell h)) fun h => .inl (by simp [h])
      · rcases List.mem_cons.mp h with rfl | h
        · simp
        · exact (ih h).imp (fun h => by simp [h]) id

theorem Memory.wf_cons {c : Host.Cell} {m : Memory} (hm : m.wf) (above : ∀ d ∈ m, c.1 < d.1)
    (hc : c.1 < Config.memSize ∧ c.2 ≠ Memory.initial c.1) : Memory.wf (c :: m) := by
  refine ⟨List.pairwise_cons.mpr ⟨fun a ha => ?_, hm.1⟩, fun d hd => ?_⟩
  · obtain ⟨d, hd, rfl⟩ := List.mem_map.mp ha; exact above d hd
  · rcases List.mem_cons.mp hd with rfl | hd
    · exact hc
    · exact hm.2 d hd

theorem Memory.wf_cell_append {m : Memory} {a : Nat} (b : Byte) (hm : m.wf) (above : ∀ d ∈ m, a < d.1)
    (ha : a < Config.memSize) : Memory.wf (Memory.cell a b ++ m) := by
  unfold Memory.cell
  split
  · exact hm
  · exact Memory.wf_cons hm above ⟨ha, ‹_›⟩

/-- A write inside MEM keeps the canonical form. -/
theorem Memory.write_wf {m : Memory} (hm : m.wf) {a : Nat} (b : Byte) (ha : a < Config.memSize) : (m.write a b).wf := by
  induction m with
  | nil => simpa [Memory.write] using Memory.wf_cell_append b hm (by simp) ha
  | cons hd tl ih =>
    obtain ⟨a', b'⟩ := hd
    have above := Memory.wf_above hm
    simp only [Memory.write]
    split
    · rename_i h₁
      refine Memory.wf_cell_append b hm (fun d hd => ?_) ha
      rcases List.mem_cons.mp hd with rfl | hd
      · exact h₁
      · exact lt_trans h₁ (above d hd)
    · split
      · rename_i h₂
        exact Memory.wf_cell_append b (Memory.wf_tail hm) (by simpa [h₂] using above) ha
      · refine Memory.wf_cons (ih (Memory.wf_tail hm)) (fun d hd => ?_) (hm.2 (a', b') (by simp))
        rcases Memory.mem_write hd with hd | ⟨rfl, -⟩
        · exact above d hd
        · simp; omega

/-! ### Blocks of bytes -/

/-- Writing a block inside MEM keeps the canonical form. -/
theorem Memory.writeBlock_wf {m : Memory} (hm : m.wf) {a : Nat} (bs : List Byte)
    (h : a + bs.length ≤ Config.memSize) : (m.writeBlock a bs).wf := by
  induction bs generalizing m a with
  | nil => exact hm
  | cons b bs ih =>
    simp only [List.length_cons] at h
    exact ih (Memory.write_wf hm b (by omega)) (by omega)

/-- Writing a block leaves every byte outside it alone; this holds of every memory, canonical or not. -/
theorem Memory.read_writeBlock_outside {m : Memory} {a c : Nat} {bs : List Byte} (h : c < a ∨ a + bs.length ≤ c) :
    (m.writeBlock a bs).read c = m.read c := by
  induction bs generalizing m a with
  | nil => rfl
  | cons b bs ih =>
    simp only [List.length_cons] at h
    rw [Memory.writeBlock, ih (by omega), Memory.read_write_ne _ _ (by omega)]

/-- A block written inside MEM reads back byte for byte. -/
theorem Memory.read_writeBlock {m : Memory} (hm : m.wf) {a : Nat} {bs : List Byte}
    (h : a + bs.length ≤ Config.memSize) {k : Nat} (hk : k < bs.length) :
    (m.writeBlock a bs).read (a + k) = bs[k] := by
  induction bs generalizing m a k with
  | nil => simp at hk
  | cons b bs ih =>
    simp only [List.length_cons] at h hk
    rw [Memory.writeBlock]
    cases k with
    | zero => rw [Memory.read_writeBlock_outside (by omega)]; exact Memory.read_write_same hm a b
    | succ k =>
      have := ih (Memory.write_wf (a := a) hm b (by omega)) (a := a + 1) (by omega) (k := k) (by omega)
      simpa [Nat.add_assoc, Nat.add_comm 1 k] using this

@[simp] theorem Memory.length_readBlock (m : Memory) (a count : Nat) : (m.readBlock a count).length = count := by
  induction count generalizing a with
  | zero => rfl
  | succ count ih => simp [Memory.readBlock, ih]

@[simp] theorem Memory.getElem_readBlock (m : Memory) (a count k : Nat) (h : k < (m.readBlock a count).length) :
    (m.readBlock a count)[k] = m.read (a + k) := by
  induction count generalizing a k with
  | zero => simp [Memory.readBlock] at h
  | succ count ih =>
    cases k with
    | zero => rfl
    | succ k => simp [Memory.readBlock, ih, Nat.add_assoc, Nat.add_comm 1 k]

/-- The memory after RESET is in canonical form. -/
theorem Memory.reset_wf : State.reset.mem.wf := by decide

end Sys2Proof.Machine
end

