-- ==== Sys2Proof/Laws/State.lean ====
section
/-! SUPPORT. One lemma per field per update of the block, and one for the surrounding system, true by rfl and tagged simp, so
that no later proof unfolds an update; and the parts of the state an update leaves alone when it is a choice (a skip, a LOAD). -/

namespace Sys2Proof.Machine

/-! ### The block after RESET (10_state.md R37) -/

@[simp] theorem Block.reset_mem : Block.reset.mem = [] := rfl
@[simp] theorem Block.reset_v : Block.reset.v = Vector.replicate 16 0x00 := rfl
@[simp] theorem Block.reset_i : Block.reset.i = 0x0000 := rfl
@[simp] theorem Block.reset_pc : Block.reset.pc = 0x0200 := rfl
@[simp] theorem Block.reset_stack : Block.reset.stack = Vector.replicate 16 0x0000 := rfl
@[simp] theorem Block.reset_sp : Block.reset.sp = 0 := rfl
@[simp] theorem Block.reset_dt : Block.reset.dt = 0x00 := rfl
@[simp] theorem Block.reset_st : Block.reset.st = 0x00 := rfl
@[simp] theorem Block.reset_fb : Block.reset.fb = Vector.replicate 32 0 := rfl
@[simp] theorem Block.reset_keyq : Block.reset.keyq = [] := rfl
@[simp] theorem Block.reset_halt : Block.reset.halt = false := rfl
@[simp] theorem Block.reset_faultKind : Block.reset.faultKind = .noFault := rfl
@[simp] theorem Block.reset_faultWord : Block.reset.faultWord = 0x0000 := rfl
@[simp] theorem Block.reset_faultAddr : Block.reset.faultAddr = 0x0000 := rfl
@[simp] theorem State.reset_toBlock : State.reset.toBlock = Block.reset := rfl
@[simp] theorem State.reset_env : State.reset.env = [] := rfl
@[simp] theorem State.reset_sampled : State.reset.sampled = 0 := rfl

/-! ### setReg -/

@[simp] theorem State.setReg_mem (s : State) (r : RegNum) (b : Byte) :
    (s.setReg r b).mem = s.mem := rfl
@[simp] theorem State.setReg_v (s : State) (r : RegNum) (b : Byte) :
    (s.setReg r b).v = s.v.set r.toNat b r.isLt := rfl
@[simp] theorem State.setReg_i (s : State) (r : RegNum) (b : Byte) :
    (s.setReg r b).i = s.i := rfl
@[simp] theorem State.setReg_pc (s : State) (r : RegNum) (b : Byte) :
    (s.setReg r b).pc = s.pc := rfl
@[simp] theorem State.setReg_stack (s : State) (r : RegNum) (b : Byte) :
    (s.setReg r b).stack = s.stack := rfl
@[simp] theorem State.setReg_sp (s : State) (r : RegNum) (b : Byte) :
    (s.setReg r b).sp = s.sp := rfl
@[simp] theorem State.setReg_dt (s : State) (r : RegNum) (b : Byte) :
    (s.setReg r b).dt = s.dt := rfl
@[simp] theorem State.setReg_st (s : State) (r : RegNum) (b : Byte) :
    (s.setReg r b).st = s.st := rfl
@[simp] theorem State.setReg_fb (s : State) (r : RegNum) (b : Byte) :
    (s.setReg r b).fb = s.fb := rfl
@[simp] theorem State.setReg_keyq (s : State) (r : RegNum) (b : Byte) :
    (s.setReg r b).keyq = s.keyq := rfl
@[simp] theorem State.setReg_halt (s : State) (r : RegNum) (b : Byte) :
    (s.setReg r b).halt = s.halt := rfl
@[simp] theorem State.setReg_faultKind (s : State) (r : RegNum) (b : Byte) :
    (s.setReg r b).faultKind = s.faultKind := rfl
@[simp] theorem State.setReg_faultWord (s : State) (r : RegNum) (b : Byte) :
    (s.setReg r b).faultWord = s.faultWord := rfl
@[simp] theorem State.setReg_faultAddr (s : State) (r : RegNum) (b : Byte) :
    (s.setReg r b).faultAddr = s.faultAddr := rfl
@[simp] theorem State.setReg_toSurroundings (s : State) (r : RegNum) (b : Byte) :
    (s.setReg r b).toSurroundings = s.toSurroundings := rfl

/-! ### setRegsFrom0 -/

@[simp] theorem State.setRegsFrom0_mem (s : State) (bytes : List Byte) :
    (s.setRegsFrom0 bytes).mem = s.mem := rfl
@[simp] theorem State.setRegsFrom0_v (s : State) (bytes : List Byte) :
    (s.setRegsFrom0 bytes).v = Regs.setFrom s.v 0 bytes := rfl
@[simp] theorem State.setRegsFrom0_i (s : State) (bytes : List Byte) :
    (s.setRegsFrom0 bytes).i = s.i := rfl
@[simp] theorem State.setRegsFrom0_pc (s : State) (bytes : List Byte) :
    (s.setRegsFrom0 bytes).pc = s.pc := rfl
@[simp] theorem State.setRegsFrom0_stack (s : State) (bytes : List Byte) :
    (s.setRegsFrom0 bytes).stack = s.stack := rfl
@[simp] theorem State.setRegsFrom0_sp (s : State) (bytes : List Byte) :
    (s.setRegsFrom0 bytes).sp = s.sp := rfl
@[simp] theorem State.setRegsFrom0_dt (s : State) (bytes : List Byte) :
    (s.setRegsFrom0 bytes).dt = s.dt := rfl
@[simp] theorem State.setRegsFrom0_st (s : State) (bytes : List Byte) :
    (s.setRegsFrom0 bytes).st = s.st := rfl
@[simp] theorem State.setRegsFrom0_fb (s : State) (bytes : List Byte) :
    (s.setRegsFrom0 bytes).fb = s.fb := rfl
@[simp] theorem State.setRegsFrom0_keyq (s : State) (bytes : List Byte) :
    (s.setRegsFrom0 bytes).keyq = s.keyq := rfl
@[simp] theorem State.setRegsFrom0_halt (s : State) (bytes : List Byte) :
    (s.setRegsFrom0 bytes).halt = s.halt := rfl
@[simp] theorem State.setRegsFrom0_faultKind (s : State) (bytes : List Byte) :
    (s.setRegsFrom0 bytes).faultKind = s.faultKind := rfl
@[simp] theorem State.setRegsFrom0_faultWord (s : State) (bytes : List Byte) :
    (s.setRegsFrom0 bytes).faultWord = s.faultWord := rfl
@[simp] theorem State.setRegsFrom0_faultAddr (s : State) (bytes : List Byte) :
    (s.setRegsFrom0 bytes).faultAddr = s.faultAddr := rfl
@[simp] theorem State.setRegsFrom0_toSurroundings (s : State) (bytes : List Byte) :
    (s.setRegsFrom0 bytes).toSurroundings = s.toSurroundings := rfl

/-! ### setI -/

@[simp] theorem State.setI_mem (s : State) (a : Word) :
    (s.setI a).mem = s.mem := rfl
@[simp] theorem State.setI_v (s : State) (a : Word) :
    (s.setI a).v = s.v := rfl
@[simp] theorem State.setI_i (s : State) (a : Word) :
    (s.setI a).i = a := rfl
@[simp] theorem State.setI_pc (s : State) (a : Word) :
    (s.setI a).pc = s.pc := rfl
@[simp] theorem State.setI_stack (s : State) (a : Word) :
    (s.setI a).stack = s.stack := rfl
@[simp] theorem State.setI_sp (s : State) (a : Word) :
    (s.setI a).sp = s.sp := rfl
@[simp] theorem State.setI_dt (s : State) (a : Word) :
    (s.setI a).dt = s.dt := rfl
@[simp] theorem State.setI_st (s : State) (a : Word) :
    (s.setI a).st = s.st := rfl
@[simp] theorem State.setI_fb (s : State) (a : Word) :
    (s.setI a).fb = s.fb := rfl
@[simp] theorem State.setI_keyq (s : State) (a : Word) :
    (s.setI a).keyq = s.keyq := rfl
@[simp] theorem State.setI_halt (s : State) (a : Word) :
    (s.setI a).halt = s.halt := rfl
@[simp] theorem State.setI_faultKind (s : State) (a : Word) :
    (s.setI a).faultKind = s.faultKind := rfl
@[simp] theorem State.setI_faultWord (s : State) (a : Word) :
    (s.setI a).faultWord = s.faultWord := rfl
@[simp] theorem State.setI_faultAddr (s : State) (a : Word) :
    (s.setI a).faultAddr = s.faultAddr := rfl
@[simp] theorem State.setI_toSurroundings (s : State) (a : Word) :
    (s.setI a).toSurroundings = s.toSurroundings := rfl

/-! ### setDt -/

@[simp] theorem State.setDt_mem (s : State) (b : Byte) :
    (s.setDt b).mem = s.mem := rfl
@[simp] theorem State.setDt_v (s : State) (b : Byte) :
    (s.setDt b).v = s.v := rfl
@[simp] theorem State.setDt_i (s : State) (b : Byte) :
    (s.setDt b).i = s.i := rfl
@[simp] theorem State.setDt_pc (s : State) (b : Byte) :
    (s.setDt b).pc = s.pc := rfl
@[simp] theorem State.setDt_stack (s : State) (b : Byte) :
    (s.setDt b).stack = s.stack := rfl
@[simp] theorem State.setDt_sp (s : State) (b : Byte) :
    (s.setDt b).sp = s.sp := rfl
@[simp] theorem State.setDt_dt (s : State) (b : Byte) :
    (s.setDt b).dt = b := rfl
@[simp] theorem State.setDt_st (s : State) (b : Byte) :
    (s.setDt b).st = s.st := rfl
@[simp] theorem State.setDt_fb (s : State) (b : Byte) :
    (s.setDt b).fb = s.fb := rfl
@[simp] theorem State.setDt_keyq (s : State) (b : Byte) :
    (s.setDt b).keyq = s.keyq := rfl
@[simp] theorem State.setDt_halt (s : State) (b : Byte) :
    (s.setDt b).halt = s.halt := rfl
@[simp] theorem State.setDt_faultKind (s : State) (b : Byte) :
    (s.setDt b).faultKind = s.faultKind := rfl
@[simp] theorem State.setDt_faultWord (s : State) (b : Byte) :
    (s.setDt b).faultWord = s.faultWord := rfl
@[simp] theorem State.setDt_faultAddr (s : State) (b : Byte) :
    (s.setDt b).faultAddr = s.faultAddr := rfl
@[simp] theorem State.setDt_toSurroundings (s : State) (b : Byte) :
    (s.setDt b).toSurroundings = s.toSurroundings := rfl

/-! ### setSt -/

@[simp] theorem State.setSt_mem (s : State) (b : Byte) :
    (s.setSt b).mem = s.mem := rfl
@[simp] theorem State.setSt_v (s : State) (b : Byte) :
    (s.setSt b).v = s.v := rfl
@[simp] theorem State.setSt_i (s : State) (b : Byte) :
    (s.setSt b).i = s.i := rfl
@[simp] theorem State.setSt_pc (s : State) (b : Byte) :
    (s.setSt b).pc = s.pc := rfl
@[simp] theorem State.setSt_stack (s : State) (b : Byte) :
    (s.setSt b).stack = s.stack := rfl
@[simp] theorem State.setSt_sp (s : State) (b : Byte) :
    (s.setSt b).sp = s.sp := rfl
@[simp] theorem State.setSt_dt (s : State) (b : Byte) :
    (s.setSt b).dt = s.dt := rfl
@[simp] theorem State.setSt_st (s : State) (b : Byte) :
    (s.setSt b).st = b := rfl
@[simp] theorem State.setSt_fb (s : State) (b : Byte) :
    (s.setSt b).fb = s.fb := rfl
@[simp] theorem State.setSt_keyq (s : State) (b : Byte) :
    (s.setSt b).keyq = s.keyq := rfl
@[simp] theorem State.setSt_halt (s : State) (b : Byte) :
    (s.setSt b).halt = s.halt := rfl
@[simp] theorem State.setSt_faultKind (s : State) (b : Byte) :
    (s.setSt b).faultKind = s.faultKind := rfl
@[simp] theorem State.setSt_faultWord (s : State) (b : Byte) :
    (s.setSt b).faultWord = s.faultWord := rfl
@[simp] theorem State.setSt_faultAddr (s : State) (b : Byte) :
    (s.setSt b).faultAddr = s.faultAddr := rfl
@[simp] theorem State.setSt_toSurroundings (s : State) (b : Byte) :
    (s.setSt b).toSurroundings = s.toSurroundings := rfl

/-! ### setKeyq -/

@[simp] theorem State.setKeyq_mem (s : State) (q : List Key) :
    (s.setKeyq q).mem = s.mem := rfl
@[simp] theorem State.setKeyq_v (s : State) (q : List Key) :
    (s.setKeyq q).v = s.v := rfl
@[simp] theorem State.setKeyq_i (s : State) (q : List Key) :
    (s.setKeyq q).i = s.i := rfl
@[simp] theorem State.setKeyq_pc (s : State) (q : List Key) :
    (s.setKeyq q).pc = s.pc := rfl
@[simp] theorem State.setKeyq_stack (s : State) (q : List Key) :
    (s.setKeyq q).stack = s.stack := rfl
@[simp] theorem State.setKeyq_sp (s : State) (q : List Key) :
    (s.setKeyq q).sp = s.sp := rfl
@[simp] theorem State.setKeyq_dt (s : State) (q : List Key) :
    (s.setKeyq q).dt = s.dt := rfl
@[simp] theorem State.setKeyq_st (s : State) (q : List Key) :
    (s.setKeyq q).st = s.st := rfl
@[simp] theorem State.setKeyq_fb (s : State) (q : List Key) :
    (s.setKeyq q).fb = s.fb := rfl
@[simp] theorem State.setKeyq_keyq (s : State) (q : List Key) :
    (s.setKeyq q).keyq = q := rfl
@[simp] theorem State.setKeyq_halt (s : State) (q : List Key) :
    (s.setKeyq q).halt = s.halt := rfl
@[simp] theorem State.setKeyq_faultKind (s : State) (q : List Key) :
    (s.setKeyq q).faultKind = s.faultKind := rfl
@[simp] theorem State.setKeyq_faultWord (s : State) (q : List Key) :
    (s.setKeyq q).faultWord = s.faultWord := rfl
@[simp] theorem State.setKeyq_faultAddr (s : State) (q : List Key) :
    (s.setKeyq q).faultAddr = s.faultAddr := rfl
@[simp] theorem State.setKeyq_toSurroundings (s : State) (q : List Key) :
    (s.setKeyq q).toSurroundings = s.toSurroundings := rfl

/-! ### setDisplay -/

@[simp] theorem State.setDisplay_mem (s : State) (f : FrameBuffer) :
    (s.setDisplay f).mem = s.mem := rfl
@[simp] theorem State.setDisplay_v (s : State) (f : FrameBuffer) :
    (s.setDisplay f).v = s.v := rfl
@[simp] theorem State.setDisplay_i (s : State) (f : FrameBuffer) :
    (s.setDisplay f).i = s.i := rfl
@[simp] theorem State.setDisplay_pc (s : State) (f : FrameBuffer) :
    (s.setDisplay f).pc = s.pc := rfl
@[simp] theorem State.setDisplay_stack (s : State) (f : FrameBuffer) :
    (s.setDisplay f).stack = s.stack := rfl
@[simp] theorem State.setDisplay_sp (s : State) (f : FrameBuffer) :
    (s.setDisplay f).sp = s.sp := rfl
@[simp] theorem State.setDisplay_dt (s : State) (f : FrameBuffer) :
    (s.setDisplay f).dt = s.dt := rfl
@[simp] theorem State.setDisplay_st (s : State) (f : FrameBuffer) :
    (s.setDisplay f).st = s.st := rfl
@[simp] theorem State.setDisplay_fb (s : State) (f : FrameBuffer) :
    (s.setDisplay f).fb = f := rfl
@[simp] theorem State.setDisplay_keyq (s : State) (f : FrameBuffer) :
    (s.setDisplay f).keyq = s.keyq := rfl
@[simp] theorem State.setDisplay_halt (s : State) (f : FrameBuffer) :
    (s.setDisplay f).halt = s.halt := rfl
@[simp] theorem State.setDisplay_faultKind (s : State) (f : FrameBuffer) :
    (s.setDisplay f).faultKind = s.faultKind := rfl
@[simp] theorem State.setDisplay_faultWord (s : State) (f : FrameBuffer) :
    (s.setDisplay f).faultWord = s.faultWord := rfl
@[simp] theorem State.setDisplay_faultAddr (s : State) (f : FrameBuffer) :
    (s.setDisplay f).faultAddr = s.faultAddr := rfl
@[simp] theorem State.setDisplay_toSurroundings (s : State) (f : FrameBuffer) :
    (s.setDisplay f).toSurroundings = s.toSurroundings := rfl

/-! ### store -/

@[simp] theorem State.store_mem (s : State) (a : Nat) (bytes : List Byte) :
    (s.store a bytes).mem = s.mem.writeBlock a bytes := rfl
@[simp] theorem State.store_v (s : State) (a : Nat) (bytes : List Byte) :
    (s.store a bytes).v = s.v := rfl
@[simp] theorem State.store_i (s : State) (a : Nat) (bytes : List Byte) :
    (s.store a bytes).i = s.i := rfl
@[simp] theorem State.store_pc (s : State) (a : Nat) (bytes : List Byte) :
    (s.store a bytes).pc = s.pc := rfl
@[simp] theorem State.store_stack (s : State) (a : Nat) (bytes : List Byte) :
    (s.store a bytes).stack = s.stack := rfl
@[simp] theorem State.store_sp (s : State) (a : Nat) (bytes : List Byte) :
    (s.store a bytes).sp = s.sp := rfl
@[simp] theorem State.store_dt (s : State) (a : Nat) (bytes : List Byte) :
    (s.store a bytes).dt = s.dt := rfl
@[simp] theorem State.store_st (s : State) (a : Nat) (bytes : List Byte) :
    (s.store a bytes).st = s.st := rfl
@[simp] theorem State.store_fb (s : State) (a : Nat) (bytes : List Byte) :
    (s.store a bytes).fb = s.fb := rfl
@[simp] theorem State.store_keyq (s : State) (a : Nat) (bytes : List Byte) :
    (s.store a bytes).keyq = s.keyq := rfl
@[simp] theorem State.store_halt (s : State) (a : Nat) (bytes : List Byte) :
    (s.store a bytes).halt = s.halt := rfl
@[simp] theorem State.store_faultKind (s : State) (a : Nat) (bytes : List Byte) :
    (s.store a bytes).faultKind = s.faultKind := rfl
@[simp] theorem State.store_faultWord (s : State) (a : Nat) (bytes : List Byte) :
    (s.store a bytes).faultWord = s.faultWord := rfl
@[simp] theorem State.store_faultAddr (s : State) (a : Nat) (bytes : List Byte) :
    (s.store a bytes).faultAddr = s.faultAddr := rfl
@[simp] theorem State.store_toSurroundings (s : State) (a : Nat) (bytes : List Byte) :
    (s.store a bytes).toSurroundings = s.toSurroundings := rfl

/-! ### setPc -/

@[simp] theorem State.setPc_mem (s : State) (target : Word) :
    (s.setPc target).mem = s.mem := rfl
@[simp] theorem State.setPc_v (s : State) (target : Word) :
    (s.setPc target).v = s.v := rfl
@[simp] theorem State.setPc_i (s : State) (target : Word) :
    (s.setPc target).i = s.i := rfl
@[simp] theorem State.setPc_pc (s : State) (target : Word) :
    (s.setPc target).pc = target := rfl
@[simp] theorem State.setPc_stack (s : State) (target : Word) :
    (s.setPc target).stack = s.stack := rfl
@[simp] theorem State.setPc_sp (s : State) (target : Word) :
    (s.setPc target).sp = s.sp := rfl
@[simp] theorem State.setPc_dt (s : State) (target : Word) :
    (s.setPc target).dt = s.dt := rfl
@[simp] theorem State.setPc_st (s : State) (target : Word) :
    (s.setPc target).st = s.st := rfl
@[simp] theorem State.setPc_fb (s : State) (target : Word) :
    (s.setPc target).fb = s.fb := rfl
@[simp] theorem State.setPc_keyq (s : State) (target : Word) :
    (s.setPc target).keyq = s.keyq := rfl
@[simp] theorem State.setPc_halt (s : State) (target : Word) :
    (s.setPc target).halt = s.halt := rfl
@[simp] theorem State.setPc_faultKind (s : State) (target : Word) :
    (s.setPc target).faultKind = s.faultKind := rfl
@[simp] theorem State.setPc_faultWord (s : State) (target : Word) :
    (s.setPc target).faultWord = s.faultWord := rfl
@[simp] theorem State.setPc_faultAddr (s : State) (target : Word) :
    (s.setPc target).faultAddr = s.faultAddr := rfl
@[simp] theorem State.setPc_toSurroundings (s : State) (target : Word) :
    (s.setPc target).toSurroundings = s.toSurroundings := rfl

/-! ### push -/

@[simp] theorem State.push_mem (s : State) (ret : Word) (h : s.sp.val < 16) :
    (s.push ret h).mem = s.mem := rfl
@[simp] theorem State.push_v (s : State) (ret : Word) (h : s.sp.val < 16) :
    (s.push ret h).v = s.v := rfl
@[simp] theorem State.push_i (s : State) (ret : Word) (h : s.sp.val < 16) :
    (s.push ret h).i = s.i := rfl
@[simp] theorem State.push_pc (s : State) (ret : Word) (h : s.sp.val < 16) :
    (s.push ret h).pc = s.pc := rfl
@[simp] theorem State.push_stack (s : State) (ret : Word) (h : s.sp.val < 16) :
    (s.push ret h).stack = s.stack.set s.sp.val ret h := rfl
@[simp] theorem State.push_sp (s : State) (ret : Word) (h : s.sp.val < 16) :
    (s.push ret h).sp = ⟨s.sp.val + 1, Nat.succ_lt_succ h⟩ := rfl
@[simp] theorem State.push_dt (s : State) (ret : Word) (h : s.sp.val < 16) :
    (s.push ret h).dt = s.dt := rfl
@[simp] theorem State.push_st (s : State) (ret : Word) (h : s.sp.val < 16) :
    (s.push ret h).st = s.st := rfl
@[simp] theorem State.push_fb (s : State) (ret : Word) (h : s.sp.val < 16) :
    (s.push ret h).fb = s.fb := rfl
@[simp] theorem State.push_keyq (s : State) (ret : Word) (h : s.sp.val < 16) :
    (s.push ret h).keyq = s.keyq := rfl
@[simp] theorem State.push_halt (s : State) (ret : Word) (h : s.sp.val < 16) :
    (s.push ret h).halt = s.halt := rfl
@[simp] theorem State.push_faultKind (s : State) (ret : Word) (h : s.sp.val < 16) :
    (s.push ret h).faultKind = s.faultKind := rfl
@[simp] theorem State.push_faultWord (s : State) (ret : Word) (h : s.sp.val < 16) :
    (s.push ret h).faultWord = s.faultWord := rfl
@[simp] theorem State.push_faultAddr (s : State) (ret : Word) (h : s.sp.val < 16) :
    (s.push ret h).faultAddr = s.faultAddr := rfl
@[simp] theorem State.push_toSurroundings (s : State) (ret : Word) (h : s.sp.val < 16) :
    (s.push ret h).toSurroundings = s.toSurroundings := rfl

/-! ### pop -/

@[simp] theorem State.pop_mem (s : State) :
    s.pop.mem = s.mem := rfl
@[simp] theorem State.pop_v (s : State) :
    s.pop.v = s.v := rfl
@[simp] theorem State.pop_i (s : State) :
    s.pop.i = s.i := rfl
@[simp] theorem State.pop_pc (s : State) :
    s.pop.pc = s.pc := rfl
@[simp] theorem State.pop_stack (s : State) :
    s.pop.stack = s.stack := rfl
@[simp] theorem State.pop_sp (s : State) :
    s.pop.sp = ⟨s.sp.val - 1, Nat.lt_of_le_of_lt (Nat.sub_le _ _) s.sp.isLt⟩ := rfl
@[simp] theorem State.pop_dt (s : State) :
    s.pop.dt = s.dt := rfl
@[simp] theorem State.pop_st (s : State) :
    s.pop.st = s.st := rfl
@[simp] theorem State.pop_fb (s : State) :
    s.pop.fb = s.fb := rfl
@[simp] theorem State.pop_keyq (s : State) :
    s.pop.keyq = s.keyq := rfl
@[simp] theorem State.pop_halt (s : State) :
    s.pop.halt = s.halt := rfl
@[simp] theorem State.pop_faultKind (s : State) :
    s.pop.faultKind = s.faultKind := rfl
@[simp] theorem State.pop_faultWord (s : State) :
    s.pop.faultWord = s.faultWord := rfl
@[simp] theorem State.pop_faultAddr (s : State) :
    s.pop.faultAddr = s.faultAddr := rfl
@[simp] theorem State.pop_toSurroundings (s : State) :
    s.pop.toSurroundings = s.toSurroundings := rfl

/-! ### raise -/

@[simp] theorem State.raise_mem (s : State) (kind : FaultKind) (addr word : Word) :
    (s.raise kind addr word).mem = s.mem := rfl
@[simp] theorem State.raise_v (s : State) (kind : FaultKind) (addr word : Word) :
    (s.raise kind addr word).v = s.v := rfl
@[simp] theorem State.raise_i (s : State) (kind : FaultKind) (addr word : Word) :
    (s.raise kind addr word).i = s.i := rfl
@[simp] theorem State.raise_pc (s : State) (kind : FaultKind) (addr word : Word) :
    (s.raise kind addr word).pc = s.pc := rfl
@[simp] theorem State.raise_stack (s : State) (kind : FaultKind) (addr word : Word) :
    (s.raise kind addr word).stack = s.stack := rfl
@[simp] theorem State.raise_sp (s : State) (kind : FaultKind) (addr word : Word) :
    (s.raise kind addr word).sp = s.sp := rfl
@[simp] theorem State.raise_dt (s : State) (kind : FaultKind) (addr word : Word) :
    (s.raise kind addr word).dt = s.dt := rfl
@[simp] theorem State.raise_st (s : State) (kind : FaultKind) (addr word : Word) :
    (s.raise kind addr word).st = s.st := rfl
@[simp] theorem State.raise_fb (s : State) (kind : FaultKind) (addr word : Word) :
    (s.raise kind addr word).fb = s.fb := rfl
@[simp] theorem State.raise_keyq (s : State) (kind : FaultKind) (addr word : Word) :
    (s.raise kind addr word).keyq = s.keyq := rfl
@[simp] theorem State.raise_halt (s : State) (kind : FaultKind) (addr word : Word) :
    (s.raise kind addr word).halt = true := rfl
@[simp] theorem State.raise_faultKind (s : State) (kind : FaultKind) (addr word : Word) :
    (s.raise kind addr word).faultKind = kind := rfl
@[simp] theorem State.raise_faultWord (s : State) (kind : FaultKind) (addr word : Word) :
    (s.raise kind addr word).faultWord = word := rfl
@[simp] theorem State.raise_faultAddr (s : State) (kind : FaultKind) (addr word : Word) :
    (s.raise kind addr word).faultAddr = addr := rfl
@[simp] theorem State.raise_toSurroundings (s : State) (kind : FaultKind) (addr word : Word) :
    (s.raise kind addr word).toSurroundings = s.toSurroundings := rfl

/-! ### resetBlock -/

@[simp] theorem State.resetBlock_toBlock (s : State) :
    s.resetBlock.toBlock = Block.reset := rfl
@[simp] theorem State.resetBlock_toSurroundings (s : State) :
    s.resetBlock.toSurroundings = s.toSurroundings := rfl

/-! ### writeResultThenFlag -/

@[simp] theorem State.writeResultThenFlag_mem (s : State) (x : RegNum) (b : Byte) (c : Bool) :
    (s.writeResultThenFlag x b c).mem = s.mem := rfl
@[simp] theorem State.writeResultThenFlag_v (s : State) (x : RegNum) (b : Byte) (c : Bool) :
    (s.writeResultThenFlag x b c).v = ((s.setReg x b).setReg regF (flagByte c)).v := rfl
@[simp] theorem State.writeResultThenFlag_i (s : State) (x : RegNum) (b : Byte) (c : Bool) :
    (s.writeResultThenFlag x b c).i = s.i := rfl
@[simp] theorem State.writeResultThenFlag_pc (s : State) (x : RegNum) (b : Byte) (c : Bool) :
    (s.writeResultThenFlag x b c).pc = s.pc := rfl
@[simp] theorem State.writeResultThenFlag_stack (s : State) (x : RegNum) (b : Byte) (c : Bool) :
    (s.writeResultThenFlag x b c).stack = s.stack := rfl
@[simp] theorem State.writeResultThenFlag_sp (s : State) (x : RegNum) (b : Byte) (c : Bool) :
    (s.writeResultThenFlag x b c).sp = s.sp := rfl
@[simp] theorem State.writeResultThenFlag_dt (s : State) (x : RegNum) (b : Byte) (c : Bool) :
    (s.writeResultThenFlag x b c).dt = s.dt := rfl
@[simp] theorem State.writeResultThenFlag_st (s : State) (x : RegNum) (b : Byte) (c : Bool) :
    (s.writeResultThenFlag x b c).st = s.st := rfl
@[simp] theorem State.writeResultThenFlag_fb (s : State) (x : RegNum) (b : Byte) (c : Bool) :
    (s.writeResultThenFlag x b c).fb = s.fb := rfl
@[simp] theorem State.writeResultThenFlag_keyq (s : State) (x : RegNum) (b : Byte) (c : Bool) :
    (s.writeResultThenFlag x b c).keyq = s.keyq := rfl
@[simp] theorem State.writeResultThenFlag_halt (s : State) (x : RegNum) (b : Byte) (c : Bool) :
    (s.writeResultThenFlag x b c).halt = s.halt := rfl
@[simp] theorem State.writeResultThenFlag_faultKind (s : State) (x : RegNum) (b : Byte) (c : Bool) :
    (s.writeResultThenFlag x b c).faultKind = s.faultKind := rfl
@[simp] theorem State.writeResultThenFlag_faultWord (s : State) (x : RegNum) (b : Byte) (c : Bool) :
    (s.writeResultThenFlag x b c).faultWord = s.faultWord := rfl
@[simp] theorem State.writeResultThenFlag_faultAddr (s : State) (x : RegNum) (b : Byte) (c : Bool) :
    (s.writeResultThenFlag x b c).faultAddr = s.faultAddr := rfl
@[simp] theorem State.writeResultThenFlag_toSurroundings (s : State) (x : RegNum) (b : Byte) (c : Bool) :
    (s.writeResultThenFlag x b c).toSurroundings = s.toSurroundings := rfl

/-! ### tick -/

@[simp] theorem State.tick_mem (s : State) :
    s.tick.mem = s.mem := rfl
@[simp] theorem State.tick_v (s : State) :
    s.tick.v = s.v := rfl
@[simp] theorem State.tick_i (s : State) :
    s.tick.i = s.i := rfl
@[simp] theorem State.tick_pc (s : State) :
    s.tick.pc = s.pc := rfl
@[simp] theorem State.tick_stack (s : State) :
    s.tick.stack = s.stack := rfl
@[simp] theorem State.tick_sp (s : State) :
    s.tick.sp = s.sp := rfl
@[simp] theorem State.tick_dt (s : State) :
    s.tick.dt = tickTimer s.dt := rfl
@[simp] theorem State.tick_st (s : State) :
    s.tick.st = tickTimer s.st := rfl
@[simp] theorem State.tick_fb (s : State) :
    s.tick.fb = s.fb := rfl
@[simp] theorem State.tick_keyq (s : State) :
    s.tick.keyq = s.keyq := rfl
@[simp] theorem State.tick_halt (s : State) :
    s.tick.halt = s.halt := rfl
@[simp] theorem State.tick_faultKind (s : State) :
    s.tick.faultKind = s.faultKind := rfl
@[simp] theorem State.tick_faultWord (s : State) :
    s.tick.faultWord = s.faultWord := rfl
@[simp] theorem State.tick_faultAddr (s : State) :
    s.tick.faultAddr = s.faultAddr := rfl
@[simp] theorem State.tick_toSurroundings (s : State) :
    s.tick.toSurroundings = s.toSurroundings := rfl

/-! ### keyEvent -/

@[simp] theorem State.keyEvent_mem (s : State) (k : Key) :
    (s.keyEvent k).mem = s.mem := rfl
@[simp] theorem State.keyEvent_v (s : State) (k : Key) :
    (s.keyEvent k).v = s.v := rfl
@[simp] theorem State.keyEvent_i (s : State) (k : Key) :
    (s.keyEvent k).i = s.i := rfl
@[simp] theorem State.keyEvent_pc (s : State) (k : Key) :
    (s.keyEvent k).pc = s.pc := rfl
@[simp] theorem State.keyEvent_stack (s : State) (k : Key) :
    (s.keyEvent k).stack = s.stack := rfl
@[simp] theorem State.keyEvent_sp (s : State) (k : Key) :
    (s.keyEvent k).sp = s.sp := rfl
@[simp] theorem State.keyEvent_dt (s : State) (k : Key) :
    (s.keyEvent k).dt = s.dt := rfl
@[simp] theorem State.keyEvent_st (s : State) (k : Key) :
    (s.keyEvent k).st = s.st := rfl
@[simp] theorem State.keyEvent_fb (s : State) (k : Key) :
    (s.keyEvent k).fb = s.fb := rfl
@[simp] theorem State.keyEvent_keyq (s : State) (k : Key) :
    (s.keyEvent k).keyq = s.keyq ++ [k] := rfl
@[simp] theorem State.keyEvent_halt (s : State) (k : Key) :
    (s.keyEvent k).halt = s.halt := rfl
@[simp] theorem State.keyEvent_faultKind (s : State) (k : Key) :
    (s.keyEvent k).faultKind = s.faultKind := rfl
@[simp] theorem State.keyEvent_faultWord (s : State) (k : Key) :
    (s.keyEvent k).faultWord = s.faultWord := rfl
@[simp] theorem State.keyEvent_faultAddr (s : State) (k : Key) :
    (s.keyEvent k).faultAddr = s.faultAddr := rfl
@[simp] theorem State.keyEvent_toSurroundings (s : State) (k : Key) :
    (s.keyEvent k).toSurroundings = s.toSurroundings := rfl

/-! ### dropOperation -/

@[simp] theorem State.dropOperation_toBlock (s : State) :
    s.dropOperation.toBlock = s.toBlock := rfl
@[simp] theorem State.dropOperation_env (s : State) :
    s.dropOperation.env = s.env.tail := rfl
@[simp] theorem State.dropOperation_sampled (s : State) :
    s.dropOperation.sampled = s.sampled := rfl

/-! ### dropInputs -/

@[simp] theorem State.dropInputs_toBlock (s : State) :
    s.dropInputs.toBlock = s.toBlock := rfl
@[simp] theorem State.dropInputs_env (s : State) :
    s.dropInputs.env = s.env.tail := rfl
@[simp] theorem State.dropInputs_sampled (s : State) :
    s.dropInputs.sampled = s.sampled + 1 := rfl

/-! ### advance -/

@[simp] theorem State.advance_mem (s : State) :
    s.advance.mem = s.mem := rfl
@[simp] theorem State.advance_v (s : State) :
    s.advance.v = s.v := rfl
@[simp] theorem State.advance_i (s : State) :
    s.advance.i = s.i := rfl
@[simp] theorem State.advance_pc (s : State) :
    s.advance.pc = s.pc + 2 := rfl
@[simp] theorem State.advance_stack (s : State) :
    s.advance.stack = s.stack := rfl
@[simp] theorem State.advance_sp (s : State) :
    s.advance.sp = s.sp := rfl
@[simp] theorem State.advance_dt (s : State) :
    s.advance.dt = s.dt := rfl
@[simp] theorem State.advance_st (s : State) :
    s.advance.st = s.st := rfl
@[simp] theorem State.advance_fb (s : State) :
    s.advance.fb = s.fb := rfl
@[simp] theorem State.advance_keyq (s : State) :
    s.advance.keyq = s.keyq := rfl
@[simp] theorem State.advance_halt (s : State) :
    s.advance.halt = s.halt := rfl
@[simp] theorem State.advance_faultKind (s : State) :
    s.advance.faultKind = s.faultKind := rfl
@[simp] theorem State.advance_faultWord (s : State) :
    s.advance.faultWord = s.faultWord := rfl
@[simp] theorem State.advance_faultAddr (s : State) :
    s.advance.faultAddr = s.faultAddr := rfl
@[simp] theorem State.advance_toSurroundings (s : State) :
    s.advance.toSurroundings = s.toSurroundings := rfl

/-! ### skipIf and load -/

@[simp] theorem State.skipIf_mem (s : State) (c : Bool) : (s.skipIf c).mem = s.mem := by cases c <;> rfl
@[simp] theorem State.skipIf_v (s : State) (c : Bool) : (s.skipIf c).v = s.v := by cases c <;> rfl
@[simp] theorem State.skipIf_i (s : State) (c : Bool) : (s.skipIf c).i = s.i := by cases c <;> rfl
@[simp] theorem State.skipIf_stack (s : State) (c : Bool) : (s.skipIf c).stack = s.stack := by cases c <;> rfl
@[simp] theorem State.skipIf_sp (s : State) (c : Bool) : (s.skipIf c).sp = s.sp := by cases c <;> rfl
@[simp] theorem State.skipIf_dt (s : State) (c : Bool) : (s.skipIf c).dt = s.dt := by cases c <;> rfl
@[simp] theorem State.skipIf_st (s : State) (c : Bool) : (s.skipIf c).st = s.st := by cases c <;> rfl
@[simp] theorem State.skipIf_fb (s : State) (c : Bool) : (s.skipIf c).fb = s.fb := by cases c <;> rfl
@[simp] theorem State.skipIf_keyq (s : State) (c : Bool) : (s.skipIf c).keyq = s.keyq := by cases c <;> rfl
@[simp] theorem State.skipIf_halt (s : State) (c : Bool) : (s.skipIf c).halt = s.halt := by cases c <;> rfl
@[simp] theorem State.skipIf_faultKind (s : State) (c : Bool) : (s.skipIf c).faultKind = s.faultKind := by cases c <;> rfl
@[simp] theorem State.skipIf_faultWord (s : State) (c : Bool) : (s.skipIf c).faultWord = s.faultWord := by cases c <;> rfl
@[simp] theorem State.skipIf_faultAddr (s : State) (c : Bool) : (s.skipIf c).faultAddr = s.faultAddr := by cases c <;> rfl
@[simp] theorem State.skipIf_toSurroundings (s : State) (c : Bool) :
    (s.skipIf c).toSurroundings = s.toSurroundings := by cases c <;> rfl
@[simp] theorem State.skipIf_pc (s : State) (c : Bool) : (s.skipIf c).pc = if c then s.pc + 2 else s.pc := by
  cases c <;> rfl

@[simp] theorem State.load_v (s : State) (base : Nat) (bytes : List Byte) :
    (s.load base bytes).v = s.v := by unfold State.load; split <;> rfl
@[simp] theorem State.load_i (s : State) (base : Nat) (bytes : List Byte) :
    (s.load base bytes).i = s.i := by unfold State.load; split <;> rfl
@[simp] theorem State.load_pc (s : State) (base : Nat) (bytes : List Byte) :
    (s.load base bytes).pc = s.pc := by unfold State.load; split <;> rfl
@[simp] theorem State.load_stack (s : State) (base : Nat) (bytes : List Byte) :
    (s.load base bytes).stack = s.stack := by unfold State.load; split <;> rfl
@[simp] theorem State.load_sp (s : State) (base : Nat) (bytes : List Byte) :
    (s.load base bytes).sp = s.sp := by unfold State.load; split <;> rfl
@[simp] theorem State.load_dt (s : State) (base : Nat) (bytes : List Byte) :
    (s.load base bytes).dt = s.dt := by unfold State.load; split <;> rfl
@[simp] theorem State.load_st (s : State) (base : Nat) (bytes : List Byte) :
    (s.load base bytes).st = s.st := by unfold State.load; split <;> rfl
@[simp] theorem State.load_fb (s : State) (base : Nat) (bytes : List Byte) :
    (s.load base bytes).fb = s.fb := by unfold State.load; split <;> rfl
@[simp] theorem State.load_keyq (s : State) (base : Nat) (bytes : List Byte) :
    (s.load base bytes).keyq = s.keyq := by unfold State.load; split <;> rfl
@[simp] theorem State.load_halt (s : State) (base : Nat) (bytes : List Byte) :
    (s.load base bytes).halt = s.halt := by unfold State.load; split <;> rfl
@[simp] theorem State.load_faultKind (s : State) (base : Nat) (bytes : List Byte) :
    (s.load base bytes).faultKind = s.faultKind := by unfold State.load; split <;> rfl
@[simp] theorem State.load_faultWord (s : State) (base : Nat) (bytes : List Byte) :
    (s.load base bytes).faultWord = s.faultWord := by unfold State.load; split <;> rfl
@[simp] theorem State.load_faultAddr (s : State) (base : Nat) (bytes : List Byte) :
    (s.load base bytes).faultAddr = s.faultAddr := by unfold State.load; split <;> rfl
@[simp] theorem State.load_toSurroundings (s : State) (base : Nat) (bytes : List Byte) :
    (s.load base bytes).toSurroundings = s.toSurroundings := by unfold State.load; split <;> rfl
@[simp] theorem State.load_mem (s : State) (base : Nat) (bytes : List Byte) : (s.load base bytes).mem =
    if loadFits base bytes.length then s.mem.writeBlock base bytes else s.mem := by unfold State.load; split <;> rfl

end Sys2Proof.Machine
end

