-- ==== Sys2Proof/Laws/Operands.lean ====
section
/-! SUPPORT. What reading a register sees after a write, the register block of LD_VX_MEM, and the operand forms as
numbers. -/

namespace Sys2Proof.Machine

@[simp] theorem State.reg_setReg_same (s : State) (r : RegNum) (b : Byte) : (s.setReg r b).reg r = b := by
  simp [State.reg]

theorem State.reg_setReg_ne (s : State) {r q : RegNum} (b : Byte) (h : q ≠ r) : (s.setReg r b).reg q = s.reg q := by
  simp only [State.reg, State.setReg_v]
  exact Vector.getElem_set_ne _ _ fun e => h (BitVec.eq_of_toNat_eq e.symm)

/-- What a read of a register sees after a write. -/
theorem State.reg_setReg (s : State) (r q : RegNum) (b : Byte) :
    (s.setReg r b).reg q = if q = r then b else s.reg q := by
  split
  · subst q; simp
  · exact State.reg_setReg_ne s b ‹_›

/-- Registers are read from `v` alone. -/
theorem State.reg_congr {s t : State} (h : t.v = s.v) (r : RegNum) : t.reg r = s.reg r := by simp [State.reg, h]

/-- The order of 44_alu.md R180: VF holds the flag, Vx the result unless it is VF, every other register is as it was. -/
theorem State.reg_writeResultThenFlag (s : State) (x q : RegNum) (b : Byte) (c : Bool) :
    (s.writeResultThenFlag x b c).reg q = if q = regF then flagByte c else if q = x then b else s.reg q := by
  simp [State.writeResultThenFlag, State.reg_setReg]

/-- The registers after a block has been written from register `k` on. -/
theorem Regs.getElem_setFrom (v : Regs) (k : Nat) (bs : List Byte) (j : Nat) (hj : j < 16) :
    (Regs.setFrom v k bs)[j] = if h : k ≤ j ∧ j - k < bs.length then bs[j - k] else v[j] := by
  induction bs generalizing v k with
  | nil => simp [Regs.setFrom]
  | cons b bs ih =>
    rw [Regs.setFrom, ih]
    by_cases h₁ : j = k
    · subst h₁; simp
    · by_cases h₂ : k + 1 ≤ j ∧ j - (k + 1) < bs.length
      · rw [dif_pos h₂, dif_pos (by simp; omega)]
        have : j - k = (j - (k + 1)) + 1 := by omega
        simp [this]
      · rw [dif_neg h₂, dif_neg (by simp; omega), Vector.getElem_setIfInBounds_ne _ (by omega)]

/-- A transfer of `count` bytes from I is in range exactly when it moves nothing or ends at 4095 or below (R225). -/
theorem State.accessOutOfRange_eq_false {s : State} {count : Nat} :
    s.accessOutOfRange count = false ↔ count = 0 ∨ s.i.toNat + count ≤ 4096 := by
  simp [State.accessOutOfRange, State.base, Config.memSize]; omega

theorem State.accessOutOfRange_eq_true {s : State} {count : Nat} :
    s.accessOutOfRange count = true ↔ 1 ≤ count ∧ s.i.toNat + count > 4096 := by
  simp [State.accessOutOfRange, State.base, Config.memSize]; omega

@[simp] theorem zextAddr_toNat (nnn : Addr) : (zextAddr nnn).toNat = nnn.toNat := by
  have := nnn.isLt
  simp [zextAddr]; omega

@[simp] theorem zextByte_toNat (b : Byte) : (zextByte b).toNat = b.toNat := by
  have := b.isLt
  simp [zextByte]; omega

@[simp] theorem zextKey_toNat (k : Key) : (zextKey k).toNat = k.toNat := by
  have := k.isLt
  simp [zextKey]; omega

@[simp] theorem digitSprite_toNat (b : Byte) : (digitSprite b).toNat = 5 * b.toNat := by
  have := b.isLt
  simp [digitSprite, Config.fontStride]; omega

@[simp] theorem length_decimalDigits (b : Byte) : (decimalDigits b).length = 3 := rfl

@[simp] theorem State.length_regsUpTo (s : State) (x : RegNum) : (s.regsUpTo x).length = x.toNat + 1 := by
  have := x.isLt
  simp [State.regsUpTo]; omega

theorem State.getElem_regsUpTo (s : State) (x r : RegNum) (h : r.toNat < (s.regsUpTo x).length) :
    (s.regsUpTo x)[r.toNat] = s.reg r := by
  simp [State.regsUpTo, State.reg]

theorem State.keysHeld_of_step {s : State} {keys : BitVec 16} {rand : Byte} {rest : List Operation}
    (h : s.env = .step keys rand :: rest) : s.keysHeld = keys := by simp [State.keysHeld, h]

theorem State.rand_of_step {s : State} {keys : BitVec 16} {rand : Byte} {rest : List Operation}
    (h : s.env = .step keys rand :: rest) : s.rand = rand := by simp [State.rand, h]

theorem State.rand_of_nil {s : State} (h : s.env = []) : s.rand = Config.freeRand s.sampled := by
  simp [State.rand, h]

end Sys2Proof.Machine
end

