-- ==== Sys2Proof/Laws/Cycle.lean ====
section
/-! SUPPORT. What the next operation on the block can be, and what STEP does in each of its four cases, once
(40_execute_cycle.md R120 to R126). -/

namespace Sys2Proof.Machine

/-- A halted block does not step (R121). -/
theorem executeCycle_halted {s : State} (h : s.halt = true) : executeCycle s = .next s := by simp [executeCycle, h]

/-- The bounds check before the fetch (R122). -/
theorem executeCycle_outOfBounds {s : State} (h : s.halt = false) (hpc : s.pc.toNat > 4094) :
    executeCycle s = .next (s.raise .pcOutOfBounds s.pc 0) := by
  simp [executeCycle, h, Config.pcMaxFetch, hpc]

/-- A fetched word that is no instruction (R125). -/
theorem executeCycle_undecodable {s : State} (h : s.halt = false) (hpc : s.pc.toNat ≤ 4094)
    (hd : decode s.fetchWord = none) : executeCycle s = .next (s.advance.raise .decodeFault s.pc s.fetchWord) := by
  have : ¬ s.pc.toNat > Config.pcMaxFetch := by simp [Config.pcMaxFetch]; omega
  simp [executeCycle, h, this, hd]

/-- A fetched instruction is executed with PC advanced (R126). -/
theorem executeCycle_decoded {s : State} {i : Instr} (h : s.halt = false) (hpc : s.pc.toNat ≤ 4094)
    (hd : decode s.fetchWord = some i) : executeCycle s = exec i s.advance := by
  have : ¬ s.pc.toNat > Config.pcMaxFetch := by simp [Config.pcMaxFetch]; omega
  simp [executeCycle, h, this, hd]

/-- Everything a STEP can be: one of the four cases above. -/
theorem executeCycle_cases (s : State) :
    (s.halt = true ∧ executeCycle s = .next s) ∨
    (s.halt = false ∧ s.pc.toNat > 4094 ∧ executeCycle s = .next (s.raise .pcOutOfBounds s.pc 0)) ∨
    (s.halt = false ∧ s.pc.toNat ≤ 4094 ∧ decode s.fetchWord = none ∧
      executeCycle s = .next (s.advance.raise .decodeFault s.pc s.fetchWord)) ∨
    (s.halt = false ∧ s.pc.toNat ≤ 4094 ∧ ∃ i, decode s.fetchWord = some i ∧ executeCycle s = exec i s.advance) := by
  cases hh : s.halt with
  | true => exact .inl ⟨rfl, executeCycle_halted hh⟩
  | false =>
    by_cases hpc : s.pc.toNat > 4094
    · exact .inr (.inl ⟨rfl, hpc, executeCycle_outOfBounds hh hpc⟩)
    · have hpc := Nat.not_lt.mp hpc
      cases hd : decode s.fetchWord with
      | none => exact .inr (.inr (.inl ⟨rfl, hpc, rfl, executeCycle_undecodable hh hpc hd⟩))
      | some i => exact .inr (.inr (.inr ⟨rfl, hpc, i, rfl, executeCycle_decoded hh hpc hd⟩))

/-- A STEP whose cycle answers `t` leaves `t` with its inputs used up. -/
theorem performStep_next {s t : State} (h : executeCycle s = .next t) : performStep s = .next t.dropInputs := by
  simp [performStep, h]

/-- With a STEP next, `step` performs it. -/
theorem step_of_step {s : State} (h : s.env = [] ∨ ∃ keys rand rest, s.env = .step keys rand :: rest) :
    step s = performStep s := by
  rcases h with h | ⟨_, _, _, h⟩ <;> simp [step, nextOperation, h]

theorem step_of_tick {s : State} {rest : List Operation} (h : s.env = .tick :: rest) :
    step s = .next s.tick.dropOperation := by simp [step, nextOperation, h]

theorem step_of_keyEvent {s : State} {k : Key} {rest : List Operation} (h : s.env = .keyEvent k :: rest) :
    step s = .next (s.keyEvent k).dropOperation := by simp [step, nextOperation, h]

theorem step_of_load {s : State} {base : Nat} {bytes : List Byte} {rest : List Operation}
    (h : s.env = .load base bytes :: rest) : step s = .next (s.load base bytes).dropOperation := by
  simp [step, nextOperation, h]

theorem step_of_reset {s : State} {rest : List Operation} (h : s.env = .reset :: rest) :
    step s = .next s.resetBlock.dropOperation := by simp [step, nextOperation, h]

/-- LOAD keeps the canonical form of memory, whether it fits or not (60_exceptions.md R258). -/
theorem State.load_wf {s : State} (hs : s.mem.wf) (base : Nat) (bytes : List Byte) : (s.load base bytes).mem.wf := by
  rw [State.load_mem]
  split
  · rename_i h
    exact Memory.writeBlock_wf hs bytes (by simpa [loadFits] using h)
  · exact hs

/-- The two stores of the instruction set keep the canonical form of memory (R225). -/
theorem State.store_wf {s : State} (hs : s.mem.wf) {bytes : List Byte} (h : s.accessOutOfRange bytes.length = false) :
    (s.mem.writeBlock s.base bytes).wf := by
  rcases State.accessOutOfRange_eq_false.mp h with h | h
  · rw [List.length_eq_zero_iff.mp h]; exact hs
  · exact Memory.writeBlock_wf hs bytes (by simpa [State.base, Config.memSize] using h)

end Sys2Proof.Machine
end

