-- ==== Sys2Proof/Laws/Display.lean ====
section
/-! SUPPORT. What drawing does, row by row: each of the at most 32 sprite rows toggles its own display row, no row is
touched twice, and the collision is the OR over the rows (43_display.md R172, corner case 4, R173). -/

namespace Sys2Proof.Machine

theorem spriteRow_injective {vy : Byte} {r q : Nat} (hr : r < q) (hq : q < r + 32) : spriteRow vy q ≠ spriteRow vy r := by
  intro h
  have := congrArg Fin.val h
  simp only [spriteRow] at this
  omega

/-- A row none of the sprite rows lands on is left alone. -/
theorem drawRows_get_outside (vx vy : Byte) (bs : List Byte) (r : Nat) (fb : FrameBuffer) (hit : Bool) (d : Fin 32)
    (h : ∀ k < bs.length, spriteRow vy (r + k) ≠ d) : (drawRows vx vy r bs fb hit).1.get d = fb.get d := by
  induction bs generalizing r fb hit with
  | nil => rfl
  | cons b bs ih =>
    rw [drawRows, ih]
    · have h₀ : spriteRow vy r ≠ d := h 0 (by simp)
      simp only [Vector.get_eq_getElem]
      exact Vector.getElem_set_ne _ _ fun e => h₀ (Fin.ext e)
    · intro k hk
      have := h (k + 1) (by simpa using hk)
      rwa [← Nat.add_assoc, Nat.add_right_comm] at this

/-- Each sprite row toggles its display row by its line. -/
theorem drawRows_get_inside (vx vy : Byte) (bs : List Byte) (r : Nat) (fb : FrameBuffer) (hit : Bool)
    (hlen : bs.length ≤ 32) (k : Nat) (hk : k < bs.length) :
    (drawRows vx vy r bs fb hit).1.get (spriteRow vy (r + k)) =
      fb.get (spriteRow vy (r + k)) ^^^ spriteLine bs[k] vx := by
  induction bs generalizing r fb hit k with
  | nil => simp at hk
  | cons b bs ih =>
    simp only [List.length_cons] at hlen hk
    rw [drawRows]
    cases k with
    | zero =>
      rw [drawRows_get_outside]
      · simp [Vector.get_eq_getElem]
      · intro k hk
        exact spriteRow_injective (by omega) (by omega)
    | succ k =>
      have hne : spriteRow vy (r + 1 + k) ≠ spriteRow vy r := spriteRow_injective (by omega) (by omega)
      rw [show r + (k + 1) = r + 1 + k by omega, ih _ _ _ (by omega) k (by omega)]
      simp only [Vector.get_eq_getElem, List.getElem_cons_succ]
      rw [Vector.getElem_set_ne _ _ fun e => hne (Fin.ext e.symm)]

/-- The collision is the OR over the rows, each tested against the display as it was before the draw. -/
theorem drawRows_hit (vx vy : Byte) (bs : List Byte) (r : Nat) (fb : FrameBuffer) (hit : Bool) (hlen : bs.length ≤ 32) :
    (drawRows vx vy r bs fb hit).2 = true ↔
      hit = true ∨ ∃ k, ∃ h : k < bs.length, fb.get (spriteRow vy (r + k)) &&& spriteLine bs[k] vx ≠ 0 := by
  induction bs generalizing r fb hit with
  | nil => simp [drawRows]
  | cons b bs ih =>
    simp only [List.length_cons] at hlen
    have keep (k : Nat) (hk : k < bs.length) :
        (fb.set (spriteRow vy r).val (fb.get (spriteRow vy r) ^^^ spriteLine b vx) (spriteRow vy r).isLt).get
          (spriteRow vy (r + 1 + k)) = fb.get (spriteRow vy (r + 1 + k)) := by
      have hne : spriteRow vy (r + 1 + k) ≠ spriteRow vy r := spriteRow_injective (by omega) (by omega)
      simp only [Vector.get_eq_getElem]
      exact Vector.getElem_set_ne _ _ fun e => hne (Fin.ext e.symm)
    rw [drawRows, ih _ _ _ (by omega)]
    constructor
    · rintro (h | ⟨k, hk, h⟩)
      · rcases Bool.or_eq_true _ _ |>.mp h with h | h
        · exact .inl h
        · exact .inr ⟨0, by simp, by simpa using h⟩
      · rw [keep k hk] at h
        exact .inr ⟨k + 1, by simpa using hk, by simpa [Nat.add_assoc, Nat.add_comm 1 k] using h⟩
    · rintro (h | ⟨k, hk, h⟩)
      · simp [h]
      · cases k with
        | zero => exact .inl (by simp at h; simp [h])
        | succ k =>
          refine .inr ⟨k, by simpa using hk, ?_⟩
          rw [keep k (by simpa using hk)]
          simpa [Nat.add_assoc, Nat.add_comm 1 k] using h

/-- Column `c` of a sprite line is lit exactly where a set pixel of the byte lands on it (43_display.md R171). -/
theorem spriteLine_column (b vx : Byte) (c : Fin 64) :
    (spriteLine b vx).getLsbD (63 - c.val) = true ↔
      ∃ j < 8, c.val = (vx.toNat + j) % 64 ∧ b.getLsbD (7 - j) = true := by
  have hc := c.isLt
  have hm : vx.toNat % 64 < 64 := Nat.mod_lt _ (by decide)
  have hmod : vx.toNat % 64 % 64 = vx.toNat % 64 := Nat.mod_mod _ _
  simp only [spriteLine, BitVec.getLsbD_rotateRight, BitVec.getLsbD_shiftLeft, BitVec.getLsbD_setWidth,
    Bool.cond_decide, hmod]
  constructor
  · intro h
    refine ⟨(c.val + 64 - vx.toNat % 64) % 64, ?_⟩
    split at h
    · simp at h
      have hb : vx.toNat % 64 + (63 - c.val) - 56 < 8 := BitVec.lt_of_getLsbD h.2.2
      refine ⟨by omega, by omega, ?_⟩
      rw [show 7 - (c.val + 64 - vx.toNat % 64) % 64 = vx.toNat % 64 + (63 - c.val) - 56 by omega]
      exact h.2.2
    · simp at h
      have hb := BitVec.lt_of_getLsbD h.2.2.2
      refine ⟨by omega, by omega, ?_⟩
      rw [show 7 - (c.val + 64 - vx.toNat % 64) % 64 = 63 - c.val - (64 - vx.toNat % 64) - 56 by omega]
      exact h.2.2.2
  · rintro ⟨j, hj, hcol, hbit⟩
    split
    · simp
      refine ⟨by omega, by omega, ?_⟩
      rw [show vx.toNat % 64 + (63 - c.val) - 56 = 7 - j by omega]
      exact hbit
    · simp
      refine ⟨by omega, by omega, by omega, ?_⟩
      rw [show 63 - c.val - (64 - vx.toNat % 64) - 56 = 7 - j by omega]
      exact hbit

end Sys2Proof.Machine
end

