-- ==== Sys2Proof/Laws/Exec.lean ====
section
/-! SUPPORT. What the meanings that branch answer; that every instruction leaves the surrounding system alone (00_scope.md R9,
R10; log 1, log 2) and sees nothing of it but its inputs. -/

namespace Sys2Proof.Machine

/-- The answer of raising a fault is a next state (R241). -/
theorem State.raiseFrom_eq (s : State) (kind : FaultKind) (i : Instr) :
    s.raiseFrom kind i = .next (s.raise kind (s.pc - 2) (encode i)) := rfl

theorem execRet_next (s : State) : (∃ h, execRet s = .next (s.pop.setPc (s.top h))) ∨
    s.sp.val = 0 ∧ execRet s = .next (s.raise .stackUnderflow (s.pc - 2) (encode .ret)) := by
  by_cases h : 0 < s.sp.val
  · exact .inl ⟨h, by simp [execRet, h]⟩
  · exact .inr ⟨by omega, by simp [execRet, h, State.raiseFrom_eq]⟩

theorem execCall_next (nnn : Addr) (s : State) : (∃ h, execCall nnn s = .next ((s.push s.pc h).setPc (zextAddr nnn))) ∨
    s.sp.val = 16 ∧ execCall nnn s = .next (s.raise .stackOverflow (s.pc - 2) (encode (.call nnn))) := by
  by_cases h : s.sp.val < 16
  · exact .inl ⟨h, by simp [execCall, h]⟩
  · exact .inr ⟨by have := s.sp.isLt; omega, by simp [execCall, h, State.raiseFrom_eq]⟩

theorem execDrw_next (x y : RegNum) (n : Nibble) (s : State) :
    (s.accessOutOfRange n.toNat = true ∧
      execDrw x y n s = .next (s.raise .memoryOutOfBounds (s.pc - 2) (encode (.drw x y n)))) ∨
    (s.accessOutOfRange n.toNat = false ∧ ∃ drawn,
      drawn = drawRows (s.reg x) (s.reg y) 0 (s.mem.readBlock s.base n.toNat) s.fb false ∧
      execDrw x y n s = .next ((s.setDisplay drawn.1).setReg regF (flagByte drawn.2))) := by
  cases h : s.accessOutOfRange n.toNat
  · exact .inr ⟨rfl, _, rfl, by simp [execDrw, h]⟩
  · exact .inl ⟨rfl, by simp [execDrw, h, State.raiseFrom_eq]⟩

theorem execLdVxK_next (x : RegNum) (s : State) : (s.keyq = [] ∧ execLdVxK x s = .next (s.setPc (s.pc - 2))) ∨
    ∃ k rest, s.keyq = k :: rest ∧ execLdVxK x s = .next ((s.setKeyq []).setReg x (zextKey k)) := by
  cases h : s.keyq with
  | nil => exact .inl ⟨rfl, by simp [execLdVxK, h]⟩
  | cons k rest => exact .inr ⟨k, rest, rfl, by simp [execLdVxK, h]⟩

theorem execLdB_next (x : RegNum) (s : State) :
    (s.accessOutOfRange 3 = true ∧
      execLdB x s = .next (s.raise .memoryOutOfBounds (s.pc - 2) (encode (.ldB x)))) ∨
    (s.accessOutOfRange 3 = false ∧ execLdB x s = .next (s.store s.base (decimalDigits (s.reg x)))) := by
  cases h : s.accessOutOfRange 3
  · exact .inr ⟨rfl, by simp [execLdB, h]⟩
  · exact .inl ⟨rfl, by simp [execLdB, h, State.raiseFrom_eq]⟩

theorem execLdMemVx_next (x : RegNum) (s : State) :
    (s.accessOutOfRange (x.toNat + 1) = true ∧
      execLdMemVx x s = .next (s.raise .memoryOutOfBounds (s.pc - 2) (encode (.ldMemVx x)))) ∨
    (s.accessOutOfRange (x.toNat + 1) = false ∧ execLdMemVx x s = .next (s.store s.base (s.regsUpTo x))) := by
  cases h : s.accessOutOfRange (x.toNat + 1)
  · exact .inr ⟨rfl, by simp [execLdMemVx, h]⟩
  · exact .inl ⟨rfl, by simp [execLdMemVx, h, State.raiseFrom_eq]⟩

theorem execLdVxMem_next (x : RegNum) (s : State) :
    (s.accessOutOfRange (x.toNat + 1) = true ∧
      execLdVxMem x s = .next (s.raise .memoryOutOfBounds (s.pc - 2) (encode (.ldVxMem x)))) ∨
    (s.accessOutOfRange (x.toNat + 1) = false ∧
      execLdVxMem x s = .next (s.setRegsFrom0 (s.mem.readBlock s.base (x.toNat + 1)))) := by
  cases h : s.accessOutOfRange (x.toNat + 1)
  · exact .inr ⟨rfl, by simp [execLdVxMem, h]⟩
  · exact .inl ⟨rfl, by simp [execLdVxMem, h, State.raiseFrom_eq]⟩

/-- No instruction touches the pending operations or the count of sampled inputs. -/
theorem exec_env {i : Instr} {s t : State} (h : exec i s = .next t) : t.env = s.env ∧ t.sampled = s.sampled := by
  have of_next {u : State} (hu : u.env = s.env ∧ u.sampled = s.sampled) (e : exec i s = .next u) :
      t.env = s.env ∧ t.sampled = s.sampled := by
    rw [e] at h; cases h; exact hu
  cases i with
  | ret => rcases execRet_next s with ⟨_, e⟩ | ⟨_, e⟩ <;> exact of_next (by simp) e
  | call nnn => rcases execCall_next nnn s with ⟨_, e⟩ | ⟨_, e⟩ <;> exact of_next (by simp) e
  | drw x y n => rcases execDrw_next x y n s with ⟨_, e⟩ | ⟨_, _, _, e⟩ <;> exact of_next (by simp) e
  | ldVxK x => rcases execLdVxK_next x s with ⟨_, e⟩ | ⟨_, _, _, e⟩ <;> exact of_next (by simp) e
  | ldB x => rcases execLdB_next x s with ⟨_, e⟩ | ⟨_, e⟩ <;> exact of_next (by simp) e
  | ldMemVx x => rcases execLdMemVx_next x s with ⟨_, e⟩ | ⟨_, e⟩ <;> exact of_next (by simp) e
  | ldVxMem x => rcases execLdVxMem_next x s with ⟨_, e⟩ | ⟨_, e⟩ <;> exact of_next (by simp) e
  | _ => exact of_next (by simp) rfl

/-- A skip is the same whatever the surrounding system is. -/
theorem State.skipIf_surroundings (b : Block) (e e' : Surroundings) (c : Bool) :
    ({ toBlock := b, toSurroundings := e' } : State).skipIf c =
      { ({ toBlock := b, toSurroundings := e } : State).skipIf c with toSurroundings := e' } := by cases c <;> rfl

/-- An instruction sees the block and, of the surrounding system, the two inputs only: KEYS_HELD in SKP and SKNP, RAND in RND
(10_state.md R20, R34; 40_execute_cycle.md R128). -/
theorem exec_congr {i : Instr} {s s' t : State} (hb : s'.toBlock = s.toBlock) (hk : (∃ x, i = .skp x ∨ i = .sknp x) → s'.keysHeld = s.keysHeld)
    (hr : (∃ x kk, i = .rnd x kk) → s'.rand = s.rand) (h : exec i s = .next t) :
    exec i s' = .next { t with toSurroundings := s'.toSurroundings } := by
  obtain ⟨b, e⟩ := s
  obtain ⟨b', e'⟩ := s'
  cases hb
  cases i with
  | ret | call | ldVxK =>
    simp only [exec, execRet, execCall, execLdVxK, State.raiseFrom] at h ⊢
    split at h <;> cases h <;> simp [*] <;> rfl
  | drw | ldB | ldMemVx | ldVxMem =>
    have range (count : Nat) : State.accessOutOfRange ⟨b, e'⟩ count = State.accessOutOfRange ⟨b, e⟩ count := rfl
    simp only [exec, execDrw, execLdB, execLdMemVx, execLdVxMem, State.raiseFrom, range] at h ⊢
    split at h <;> cases h <;> simp [*] <;> rfl
  | seImm | sneImm | seReg | sneReg => cases h; exact congrArg _ (State.skipIf_surroundings ..)
  | skp x | sknp x =>
    cases h
    simp only [exec, execSkp, execSknp, State.keyHeld, hk ⟨x, by simp⟩]
    exact congrArg _ (State.skipIf_surroundings ..)
  | rnd x kk => cases h; simp only [exec, execRnd, hr ⟨_, _, rfl⟩]; rfl
  | _ => cases h; rfl

end Sys2Proof.Machine
end

