-- ==== Sys2Proof/Laws/Effect.lean ====
section
/-! SUPPORT. Everything an instruction can do, said once: the inversion of exec (40_execute_cycle.md R126). A proof about
every instruction splits on Effect instead of unfolding the 34 meanings. Safety's destination and flagWriters name which
register is written. -/

namespace Sys2Proof.Machine

/-- The mnemonics of the six conditional skips. -/
def skipMnemonics : List String := ["SE_IMM", "SNE_IMM", "SE_REG", "SNE_REG", "SKP", "SKNP"]

/-- The mnemonics of the eight instructions that write their destination and nothing else. -/
def plainMnemonics : List String := ["LD_IMM", "ADD_IMM", "LD_REG", "OR", "AND", "XOR", "RND", "LD_VX_DT"]

/-- The mnemonics of the five instructions that write their destination and then the flag. -/
def aluFlagMnemonics : List String := ["ADD_REG", "SUB", "SUBN", "SHR", "SHL"]

/-- `Effect s i t`: from `s`, the instruction `i` may leave `t`. -/
inductive Effect (s : State) : Instr → State → Prop
  | skip (i : Instr) (c : Bool) : i.mnemonic ∈ skipMnemonics → Effect s i (s.skipIf c)
  | jp (nnn : Addr) : Effect s (.jp nnn) (s.setPc (zextAddr nnn))
  | jpV0 (nnn : Addr) : Effect s (.jpV0 nnn) (s.setPc (zextByte (s.reg 0x0) + zextAddr nnn))
  | call (nnn : Addr) (h : s.sp.val < 16) : Effect s (.call nnn) ((s.push s.pc h).setPc (zextAddr nnn))
  | callFull (nnn : Addr) : s.sp.val = 16 →
      Effect s (.call nnn) (s.raise .stackOverflow (s.pc - 2) (encode (.call nnn)))
  | ret (h : 0 < s.sp.val) : Effect s .ret (s.pop.setPc (s.top h))
  | retEmpty : s.sp.val = 0 → Effect s .ret (s.raise .stackUnderflow (s.pc - 2) (encode .ret))
  | plain (i : Instr) (x : RegNum) (b : Byte) : i.mnemonic ∈ plainMnemonics → destination i = some x →
      Effect s i (s.setReg x b)
  | flagged (i : Instr) (x : RegNum) (b : Byte) (c : Bool) : i.mnemonic ∈ aluFlagMnemonics → destination i = some x →
      Effect s i (s.writeResultThenFlag x b c)
  | address (i : Instr) (a : Word) : i.mnemonic ∈ ["LD_I", "ADD_I", "LD_F"] → Effect s i (s.setI a)
  | cls : Effect s .cls (s.setDisplay (Vector.replicate 32 0))
  | drw (x y : RegNum) (n : Nibble) (fb : FrameBuffer) (c : Bool) : s.accessOutOfRange n.toNat = false →
      Effect s (.drw x y n) ((s.setDisplay fb).setReg regF (flagByte c))
  | drwAbove (x y : RegNum) (n : Nibble) : s.accessOutOfRange n.toNat = true →
      Effect s (.drw x y n) (s.raise .memoryOutOfBounds (s.pc - 2) (encode (.drw x y n)))
  | wait (x : RegNum) : s.keyq = [] → Effect s (.ldVxK x) (s.setPc (s.pc - 2))
  | deliver (x : RegNum) (k : Key) (rest : List Key) : s.keyq = k :: rest →
      Effect s (.ldVxK x) ((s.setKeyq []).setReg x (zextKey k))
  | setDt (x : RegNum) : Effect s (.ldDtVx x) (s.setDt (s.reg x))
  | setSt (x : RegNum) : Effect s (.ldStVx x) (s.setSt (s.reg x))
  | ldB (x : RegNum) : s.accessOutOfRange 3 = false → Effect s (.ldB x) (s.store s.base (decimalDigits (s.reg x)))
  | ldBAbove (x : RegNum) : s.accessOutOfRange 3 = true →
      Effect s (.ldB x) (s.raise .memoryOutOfBounds (s.pc - 2) (encode (.ldB x)))
  | ldMemVx (x : RegNum) : s.accessOutOfRange (x.toNat + 1) = false →
      Effect s (.ldMemVx x) (s.store s.base (s.regsUpTo x))
  | ldMemVxAbove (x : RegNum) : s.accessOutOfRange (x.toNat + 1) = true →
      Effect s (.ldMemVx x) (s.raise .memoryOutOfBounds (s.pc - 2) (encode (.ldMemVx x)))
  | ldVxMem (x : RegNum) : s.accessOutOfRange (x.toNat + 1) = false →
      Effect s (.ldVxMem x) (s.setRegsFrom0 (s.mem.readBlock s.base (x.toNat + 1)))
  | ldVxMemAbove (x : RegNum) : s.accessOutOfRange (x.toNat + 1) = true →
      Effect s (.ldVxMem x) (s.raise .memoryOutOfBounds (s.pc - 2) (encode (.ldVxMem x)))

/-- exec always answers a next state, and it is one of those that Effect lists. -/
theorem exec_next_effect (i : Instr) (s : State) : ∃ t, exec i s = .next t ∧ Effect s i t := by
  cases i with
  | ret => rcases execRet_next s with ⟨h, e⟩ | ⟨h, e⟩; exacts [⟨_, e, .ret h⟩, ⟨_, e, .retEmpty h⟩]
  | call nnn => rcases execCall_next nnn s with ⟨h, e⟩ | ⟨h, e⟩; exacts [⟨_, e, .call _ h⟩, ⟨_, e, .callFull _ h⟩]
  | drw x y n =>
    rcases execDrw_next x y n s with ⟨h, e⟩ | ⟨h, _, _, e⟩
    exacts [⟨_, e, .drwAbove _ _ _ h⟩, ⟨_, e, .drw _ _ _ _ _ h⟩]
  | ldVxK x =>
    rcases execLdVxK_next x s with ⟨h, e⟩ | ⟨_, _, h, e⟩; exacts [⟨_, e, .wait _ h⟩, ⟨_, e, .deliver _ _ _ h⟩]
  | ldB x => rcases execLdB_next x s with ⟨h, e⟩ | ⟨h, e⟩; exacts [⟨_, e, .ldBAbove _ h⟩, ⟨_, e, .ldB _ h⟩]
  | ldMemVx x =>
    rcases execLdMemVx_next x s with ⟨h, e⟩ | ⟨h, e⟩; exacts [⟨_, e, .ldMemVxAbove _ h⟩, ⟨_, e, .ldMemVx _ h⟩]
  | ldVxMem x =>
    rcases execLdVxMem_next x s with ⟨h, e⟩ | ⟨h, e⟩; exacts [⟨_, e, .ldVxMemAbove _ h⟩, ⟨_, e, .ldVxMem _ h⟩]
  | cls => exact ⟨_, rfl, .cls⟩
  | jp nnn => exact ⟨_, rfl, .jp nnn⟩
  | jpV0 nnn => exact ⟨_, rfl, .jpV0 nnn⟩
  | ldDtVx x => exact ⟨_, rfl, .setDt x⟩
  | ldStVx x => exact ⟨_, rfl, .setSt x⟩
  | ldI | addI | ldF => exact ⟨_, rfl, .address _ _ (by simp [Instr.mnemonic])⟩
  | seImm | sneImm | seReg | sneReg | skp | sknp =>
    exact ⟨_, rfl, .skip _ _ (by simp [Instr.mnemonic, skipMnemonics])⟩
  | addReg | sub | shr | subn | shl =>
    exact ⟨_, rfl, .flagged _ _ _ _ (by simp [Instr.mnemonic, aluFlagMnemonics]) rfl⟩
  | ldImm | addImm | ldReg | or | and | xor | rnd | ldVxDt =>
    exact ⟨_, rfl, .plain _ _ _ (by simp [Instr.mnemonic, plainMnemonics]) rfl⟩

/-- What an instruction leaves is one of the states Effect lists. -/
theorem exec_effect {i : Instr} {s t : State} (h : exec i s = .next t) : Effect s i t := by
  obtain ⟨u, hu, he⟩ := exec_next_effect i s
  rw [h] at hu
  cases hu
  exact he

end Sys2Proof.Machine
end

