-- ==== Sys2Proof/Laws/Frames.lean ====
section
/-! SUPPORT. What each shared operation leaves alone, once: the frame of a meaning is the frame of the operation it ends
in. -/

namespace Sys2Proof.Machine

/-- A write of one general register changes that register only. -/
theorem State.changesOnly_setReg (s : State) (x : RegNum) (b : Byte) : s.ChangesOnly (s.setReg x b) [.reg x] := by
  intro p hp
  cases p <;> simp_all [State.Keeps, State.reg_setReg]

/-- The result and flag writes of R180 change Vx and VF only. -/
theorem State.changesOnly_writeResultThenFlag (s : State) (x : RegNum) (b : Byte) (c : Bool) :
    s.ChangesOnly (s.writeResultThenFlag x b c) [.reg x, .reg 0xF] := by
  intro p hp
  cases p <;> simp_all [State.Keeps, State.reg_writeResultThenFlag, regF]

/-- A jump changes PC only. -/
theorem State.changesOnly_setPc (s : State) (target : Word) : s.ChangesOnly (s.setPc target) [.pc] := by
  intro p hp
  cases p <;> simp_all [State.Keeps, State.reg]

/-- A skip changes PC only, taken or not. -/
theorem State.changesOnly_skipIf (s : State) (c : Bool) : s.ChangesOnly (s.skipIf c) [.pc] := by
  intro p hp
  cases p <;> simp_all [State.Keeps, State.reg]

/-- Taking a fault changes the fault record only (R241). -/
theorem State.changesOnly_raise (s : State) (kind : FaultKind) (addr word : Word) :
    s.ChangesOnly (s.raise kind addr word) [.faultRecord] := by
  intro p hp
  cases p <;> simp_all [State.Keeps, State.reg]

/-- A write of I changes I only. -/
theorem State.changesOnly_setI (s : State) (a : Word) : s.ChangesOnly (s.setI a) [.i] := by
  intro p hp
  cases p <;> simp_all [State.Keeps, State.reg]

/-- A store changes the stored bytes only. -/
theorem State.changesOnly_store (s : State) (a : Nat) (bytes : List Byte) :
    s.ChangesOnly (s.store a bytes) (bytesFrom a bytes.length) := by
  intro p hp
  cases p with
  | byte c =>
    simp only [bytesFrom, List.mem_map, List.mem_range, Part.byte.injEq, not_exists, not_and] at hp
    refine Memory.read_writeBlock_outside ?_
    by_contra hc
    exact hp (c - a) (by omega) (by omega)
  | _ => simp_all [State.Keeps, State.reg]

/-- Reading a register after LD_VX_MEM's transfer of V0 to Vx. -/
theorem State.reg_setRegsFrom0 (s : State) (m : Memory) (a : Nat) (x r : RegNum) :
    (s.setRegsFrom0 (m.readBlock a (x.toNat + 1))).reg r =
      if r.toNat ≤ x.toNat then m.read (a + r.toNat) else s.reg r := by
  simp only [State.reg, State.setRegsFrom0_v, Regs.getElem_setFrom, Memory.length_readBlock]
  split <;> split <;> simp_all
  all_goals omega

end Sys2Proof.Machine
end

