-- ==== Sys2Proof/Laws/PerInstr.lean ====
section
/-! SUPPORT. Statements made per instruction. EncodedWord: the word of an instruction matches its own row of the opcode map,
the row that carries its mnemonic (30_encoding.md R95). -/

namespace Sys2Proof.Laws.EncodedWord

open Sys2Proof

/-- The word of `i` matches the row of the opcode map that carries the mnemonic of `i` (R95). -/
def Statement (i : Instr) : Prop := ∃ r ∈ opcodeTable, r.mnemonic = i.mnemonic ∧ r.accepts (encode i) = true

/-- A word whose bits under the mask of its row are the row's pattern has the statement. -/
theorem of_row {i : Instr} (r : OpcodeRow) (hr : r ∈ opcodeTable) (hm : r.mnemonic = i.mnemonic)
    (h : encode i &&& r.format.mask = r.pattern) : Statement i := ⟨r, hr, hm, by simp [OpcodeRow.accepts, h]⟩

theorem cls : Statement (.cls) :=
  of_row ⟨"CLS", .e, 0x00E0⟩ (by simp [opcodeTable, opcodeRowsByTopNibble, opcodeRowsRegReg, opcodeRowsReg]) rfl
    (by decide)

theorem ret : Statement (.ret) :=
  of_row ⟨"RET", .e, 0x00EE⟩ (by simp [opcodeTable, opcodeRowsByTopNibble, opcodeRowsRegReg, opcodeRowsReg]) rfl
    (by decide)

theorem jp (nnn : Addr) : Statement (.jp nnn) :=
  of_row ⟨"JP", .a, 0x1000⟩ (by simp [opcodeTable, opcodeRowsByTopNibble, opcodeRowsRegReg, opcodeRowsReg]) rfl
    (by rw [encode, Format.mask, and_maskTop, fieldOp_wordA]; rfl)

theorem call (nnn : Addr) : Statement (.call nnn) :=
  of_row ⟨"CALL", .a, 0x2000⟩ (by simp [opcodeTable, opcodeRowsByTopNibble, opcodeRowsRegReg, opcodeRowsReg]) rfl
    (by rw [encode, Format.mask, and_maskTop, fieldOp_wordA]; rfl)

theorem seImm (x : RegNum) (kk : Byte) : Statement (.seImm x kk) :=
  of_row ⟨"SE_IMM", .ri, 0x3000⟩ (by simp [opcodeTable, opcodeRowsByTopNibble, opcodeRowsRegReg, opcodeRowsReg]) rfl
    (by rw [encode, Format.mask, and_maskTop, fieldOp_wordRI]; rfl)

theorem sneImm (x : RegNum) (kk : Byte) : Statement (.sneImm x kk) :=
  of_row ⟨"SNE_IMM", .ri, 0x4000⟩ (by simp [opcodeTable, opcodeRowsByTopNibble, opcodeRowsRegReg, opcodeRowsReg]) rfl
    (by rw [encode, Format.mask, and_maskTop, fieldOp_wordRI]; rfl)

theorem seReg (x : RegNum) (y : RegNum) : Statement (.seReg x y) :=
  of_row ⟨"SE_REG", .rr, 0x5000⟩ (by simp [opcodeTable, opcodeRowsByTopNibble, opcodeRowsRegReg, opcodeRowsReg]) rfl
    (by rw [encode, Format.mask, and_maskTopLow, fieldOp_wordRRN, fieldN_wordRRN]; rfl)

theorem ldImm (x : RegNum) (kk : Byte) : Statement (.ldImm x kk) :=
  of_row ⟨"LD_IMM", .ri, 0x6000⟩ (by simp [opcodeTable, opcodeRowsByTopNibble, opcodeRowsRegReg, opcodeRowsReg]) rfl
    (by rw [encode, Format.mask, and_maskTop, fieldOp_wordRI]; rfl)

theorem addImm (x : RegNum) (kk : Byte) : Statement (.addImm x kk) :=
  of_row ⟨"ADD_IMM", .ri, 0x7000⟩ (by simp [opcodeTable, opcodeRowsByTopNibble, opcodeRowsRegReg, opcodeRowsReg]) rfl
    (by rw [encode, Format.mask, and_maskTop, fieldOp_wordRI]; rfl)

theorem ldReg (x : RegNum) (y : RegNum) : Statement (.ldReg x y) :=
  of_row ⟨"LD_REG", .rr, 0x8000⟩ (by simp [opcodeTable, opcodeRowsByTopNibble, opcodeRowsRegReg, opcodeRowsReg]) rfl
    (by rw [encode, Format.mask, and_maskTopLow, fieldOp_wordRRN, fieldN_wordRRN]; rfl)

theorem or (x : RegNum) (y : RegNum) : Statement (.or x y) :=
  of_row ⟨"OR", .rr, 0x8001⟩ (by simp [opcodeTable, opcodeRowsByTopNibble, opcodeRowsRegReg, opcodeRowsReg]) rfl
    (by rw [encode, Format.mask, and_maskTopLow, fieldOp_wordRRN, fieldN_wordRRN]; rfl)

theorem and (x : RegNum) (y : RegNum) : Statement (.and x y) :=
  of_row ⟨"AND", .rr, 0x8002⟩ (by simp [opcodeTable, opcodeRowsByTopNibble, opcodeRowsRegReg, opcodeRowsReg]) rfl
    (by rw [encode, Format.mask, and_maskTopLow, fieldOp_wordRRN, fieldN_wordRRN]; rfl)

theorem xor (x : RegNum) (y : RegNum) : Statement (.xor x y) :=
  of_row ⟨"XOR", .rr, 0x8003⟩ (by simp [opcodeTable, opcodeRowsByTopNibble, opcodeRowsRegReg, opcodeRowsReg]) rfl
    (by rw [encode, Format.mask, and_maskTopLow, fieldOp_wordRRN, fieldN_wordRRN]; rfl)

theorem addReg (x : RegNum) (y : RegNum) : Statement (.addReg x y) :=
  of_row ⟨"ADD_REG", .rr, 0x8004⟩ (by simp [opcodeTable, opcodeRowsByTopNibble, opcodeRowsRegReg, opcodeRowsReg]) rfl
    (by rw [encode, Format.mask, and_maskTopLow, fieldOp_wordRRN, fieldN_wordRRN]; rfl)

theorem sub (x : RegNum) (y : RegNum) : Statement (.sub x y) :=
  of_row ⟨"SUB", .rr, 0x8005⟩ (by simp [opcodeTable, opcodeRowsByTopNibble, opcodeRowsRegReg, opcodeRowsReg]) rfl
    (by rw [encode, Format.mask, and_maskTopLow, fieldOp_wordRRN, fieldN_wordRRN]; rfl)

theorem shr (x : RegNum) (y : RegNum) : Statement (.shr x y) :=
  of_row ⟨"SHR", .rr, 0x8006⟩ (by simp [opcodeTable, opcodeRowsByTopNibble, opcodeRowsRegReg, opcodeRowsReg]) rfl
    (by rw [encode, Format.mask, and_maskTopLow, fieldOp_wordRRN, fieldN_wordRRN]; rfl)

theorem subn (x : RegNum) (y : RegNum) : Statement (.subn x y) :=
  of_row ⟨"SUBN", .rr, 0x8007⟩ (by simp [opcodeTable, opcodeRowsByTopNibble, opcodeRowsRegReg, opcodeRowsReg]) rfl
    (by rw [encode, Format.mask, and_maskTopLow, fieldOp_wordRRN, fieldN_wordRRN]; rfl)

theorem shl (x : RegNum) (y : RegNum) : Statement (.shl x y) :=
  of_row ⟨"SHL", .rr, 0x800E⟩ (by simp [opcodeTable, opcodeRowsByTopNibble, opcodeRowsRegReg, opcodeRowsReg]) rfl
    (by rw [encode, Format.mask, and_maskTopLow, fieldOp_wordRRN, fieldN_wordRRN]; rfl)

theorem sneReg (x : RegNum) (y : RegNum) : Statement (.sneReg x y) :=
  of_row ⟨"SNE_REG", .rr, 0x9000⟩ (by simp [opcodeTable, opcodeRowsByTopNibble, opcodeRowsRegReg, opcodeRowsReg]) rfl
    (by rw [encode, Format.mask, and_maskTopLow, fieldOp_wordRRN, fieldN_wordRRN]; rfl)

theorem ldI (nnn : Addr) : Statement (.ldI nnn) :=
  of_row ⟨"LD_I", .a, 0xA000⟩ (by simp [opcodeTable, opcodeRowsByTopNibble, opcodeRowsRegReg, opcodeRowsReg]) rfl
    (by rw [encode, Format.mask, and_maskTop, fieldOp_wordA]; rfl)

theorem jpV0 (nnn : Addr) : Statement (.jpV0 nnn) :=
  of_row ⟨"JP_V0", .a, 0xB000⟩ (by simp [opcodeTable, opcodeRowsByTopNibble, opcodeRowsRegReg, opcodeRowsReg]) rfl
    (by rw [encode, Format.mask, and_maskTop, fieldOp_wordA]; rfl)

theorem rnd (x : RegNum) (kk : Byte) : Statement (.rnd x kk) :=
  of_row ⟨"RND", .ri, 0xC000⟩ (by simp [opcodeTable, opcodeRowsByTopNibble, opcodeRowsRegReg, opcodeRowsReg]) rfl
    (by rw [encode, Format.mask, and_maskTop, fieldOp_wordRI]; rfl)

theorem drw (x : RegNum) (y : RegNum) (n : Nibble) : Statement (.drw x y n) :=
  of_row ⟨"DRW", .rrn, 0xD000⟩ (by simp [opcodeTable, opcodeRowsByTopNibble, opcodeRowsRegReg, opcodeRowsReg]) rfl
    (by rw [encode, Format.mask, and_maskTop, fieldOp_wordRRN]; rfl)

theorem skp (x : RegNum) : Statement (.skp x) :=
  of_row ⟨"SKP", .rx, 0xE09E⟩ (by simp [opcodeTable, opcodeRowsByTopNibble, opcodeRowsRegReg, opcodeRowsReg]) rfl
    (by rw [encode, Format.mask, and_maskTopByte, fieldOp_wordRI, fieldKk_wordRI]; rfl)

theorem sknp (x : RegNum) : Statement (.sknp x) :=
  of_row ⟨"SKNP", .rx, 0xE0A1⟩ (by simp [opcodeTable, opcodeRowsByTopNibble, opcodeRowsRegReg, opcodeRowsReg]) rfl
    (by rw [encode, Format.mask, and_maskTopByte, fieldOp_wordRI, fieldKk_wordRI]; rfl)

theorem ldVxDt (x : RegNum) : Statement (.ldVxDt x) :=
  of_row ⟨"LD_VX_DT", .rx, 0xF007⟩ (by simp [opcodeTable, opcodeRowsByTopNibble, opcodeRowsRegReg, opcodeRowsReg]) rfl
    (by rw [encode, Format.mask, and_maskTopByte, fieldOp_wordRI, fieldKk_wordRI]; rfl)

theorem ldVxK (x : RegNum) : Statement (.ldVxK x) :=
  of_row ⟨"LD_VX_K", .rx, 0xF00A⟩ (by simp [opcodeTable, opcodeRowsByTopNibble, opcodeRowsRegReg, opcodeRowsReg]) rfl
    (by rw [encode, Format.mask, and_maskTopByte, fieldOp_wordRI, fieldKk_wordRI]; rfl)

theorem ldDtVx (x : RegNum) : Statement (.ldDtVx x) :=
  of_row ⟨"LD_DT_VX", .rx, 0xF015⟩ (by simp [opcodeTable, opcodeRowsByTopNibble, opcodeRowsRegReg, opcodeRowsReg]) rfl
    (by rw [encode, Format.mask, and_maskTopByte, fieldOp_wordRI, fieldKk_wordRI]; rfl)

theorem ldStVx (x : RegNum) : Statement (.ldStVx x) :=
  of_row ⟨"LD_ST_VX", .rx, 0xF018⟩ (by simp [opcodeTable, opcodeRowsByTopNibble, opcodeRowsRegReg, opcodeRowsReg]) rfl
    (by rw [encode, Format.mask, and_maskTopByte, fieldOp_wordRI, fieldKk_wordRI]; rfl)

theorem addI (x : RegNum) : Statement (.addI x) :=
  of_row ⟨"ADD_I", .rx, 0xF01E⟩ (by simp [opcodeTable, opcodeRowsByTopNibble, opcodeRowsRegReg, opcodeRowsReg]) rfl
    (by rw [encode, Format.mask, and_maskTopByte, fieldOp_wordRI, fieldKk_wordRI]; rfl)

theorem ldF (x : RegNum) : Statement (.ldF x) :=
  of_row ⟨"LD_F", .rx, 0xF029⟩ (by simp [opcodeTable, opcodeRowsByTopNibble, opcodeRowsRegReg, opcodeRowsReg]) rfl
    (by rw [encode, Format.mask, and_maskTopByte, fieldOp_wordRI, fieldKk_wordRI]; rfl)

theorem ldB (x : RegNum) : Statement (.ldB x) :=
  of_row ⟨"LD_B", .rx, 0xF033⟩ (by simp [opcodeTable, opcodeRowsByTopNibble, opcodeRowsRegReg, opcodeRowsReg]) rfl
    (by rw [encode, Format.mask, and_maskTopByte, fieldOp_wordRI, fieldKk_wordRI]; rfl)

theorem ldMemVx (x : RegNum) : Statement (.ldMemVx x) :=
  of_row ⟨"LD_MEM_VX", .rx, 0xF055⟩ (by simp [opcodeTable, opcodeRowsByTopNibble, opcodeRowsRegReg, opcodeRowsReg]) rfl
    (by rw [encode, Format.mask, and_maskTopByte, fieldOp_wordRI, fieldKk_wordRI]; rfl)

theorem ldVxMem (x : RegNum) : Statement (.ldVxMem x) :=
  of_row ⟨"LD_VX_MEM", .rx, 0xF065⟩ (by simp [opcodeTable, opcodeRowsByTopNibble, opcodeRowsRegReg, opcodeRowsReg]) rfl
    (by rw [encode, Format.mask, and_maskTopByte, fieldOp_wordRI, fieldKk_wordRI]; rfl)

end Sys2Proof.Laws.EncodedWord
end

