-- ==== Sys2Proof/Tests/Slice0.lean ====
section
/-! SUPPORT. Tests. The expected results are the vectors of 95_test_vectors.md, named in each comment; a vector starts from
the state after RESET changed as it says, with its word at PC, and performs one STEP. After them, for each statement of
Certificates/Slice0/Obligations.lean that has hypotheses, a state and operands that meet them. -/

namespace Sys2Proof.Tests

open Sys2Proof Sys2Proof.Machine

/-! ### Helpers -/

/-- The state after RESET with some registers changed. -/
def withRegs (rs : List (RegNum × Byte)) : State := rs.foldl (fun s p => s.setReg p.1 p.2) State.reset

/-- The state after one step. -/
def next (s : State) : State :=
  match step s with
  | .next t => t
  | .fault _ => s
  | .refused _ => s

/-- The state after one STEP that fetches the word `w`. -/
def run (w : Nat) (s : State) : State := next (s.withFetchWord 16 w)

/-- The fault record. -/
def record (s : State) : FaultKind × Word × Word := (s.faultKind, s.faultWord, s.faultAddr)

/-- The state after RESET with I, and bytes from I on. -/
def withData (i : Word) (bytes : List Byte) : State := (State.reset.setI i).store i.toNat bytes

/-- The state after RESET with `d` return addresses held, 0x0202 and up (T2). -/
def withDepth (d : Fin 17) : State :=
  { State.reset with sp := d, stack := Vector.ofFn (fun k => BitVec.ofNat 16 (0x0202 + 2 * k.val)) }

/-- The state after RESET with operations pending. -/
def pending (ops : List Operation) : State := { State.reset with env := ops }

/-! ### Well-formedness: an ill-formed word for each check -/

/-- Tier 1, the words with top nibble 0 (E1, E16, E17). -/
theorem test_illFormed_top0 :
    wordWellFormed 0x0000 = false ∧ wordWellFormed 0x0123 = false ∧ wordWellFormed 0x00E1 = false := by decide

/-- Tier 3, a low nibble that is no sub-opcode (E9 to E12). -/
theorem test_illFormed_lowNibble :
    wordWellFormed 0x5121 = false ∧ wordWellFormed 0x912F = false ∧ wordWellFormed 0x8128 = false ∧
    wordWellFormed 0x812F = false := by decide

/-- Tier 4, a low byte that is no sub-opcode (E13 to E15). -/
theorem test_illFormed_lowByte :
    wordWellFormed 0xE39F = false ∧ wordWellFormed 0xF50B = false ∧ wordWellFormed 0xF334 = false := by decide

/-- Tier 2, every word of a top nibble is an instruction; and one of each other tier. -/
theorem test_wellFormed :
    wordWellFormed 0x1FFF = true ∧ wordWellFormed 0x00EE = true ∧ wordWellFormed 0x812E = true ∧
    wordWellFormed 0xFF65 = true := by decide

/-- The map has 34 rows (R97). -/
theorem test_opcodeTable_length : opcodeTable.length = 34 := by decide

/-! ### Decoding: the vectors' words -/

/-- Control transfer (S5, S8, T1 to T21). -/
theorem test_decode_control :
    decode 0x00EE = some .ret ∧ decode 0x1FFF = some (.jp 0xFFF) ∧ decode 0x2300 = some (.call 0x300) ∧
    decode 0x332A = some (.seImm 0x3 0x2A) ∧ decode 0x432A = some (.sneImm 0x3 0x2A) ∧
    decode 0x5120 = some (.seReg 0x1 0x2) ∧ decode 0x9AA0 = some (.sneReg 0xA 0xA) ∧
    decode 0xB300 = some (.jpV0 0x300) := by decide

/-- Immediate and random (I1, I3, I7, I9). -/
theorem test_decode_immediate :
    decode 0x6A7F = some (.ldImm 0xA 0x7F) ∧ decode 0x7001 = some (.addImm 0x0 0x01) ∧
    decode 0xA123 = some (.ldI 0x123) ∧ decode 0xC30F = some (.rnd 0x3 0x0F) := by decide

/-- Display (S2, S8). -/
theorem test_decode_display : decode 0x00E0 = some .cls ∧ decode 0xD015 = some (.drw 0x0 0x1 0x5) := by decide

/-- Arithmetic and logic (A1 to A30). -/
theorem test_decode_alu :
    decode 0x8120 = some (.ldReg 0x1 0x2) ∧ decode 0x8121 = some (.or 0x1 0x2) ∧
    decode 0x8122 = some (.and 0x1 0x2) ∧ decode 0x8123 = some (.xor 0x1 0x2) ∧
    decode 0x81F4 = some (.addReg 0x1 0xF) ∧ decode 0x8F15 = some (.sub 0xF 0x1) ∧
    decode 0x8126 = some (.shr 0x1 0x2) ∧ decode 0x8127 = some (.subn 0x1 0x2) ∧
    decode 0x812E = some (.shl 0x1 0x2) := by decide

/-- Keypad and timers (K1 to K9, M1 to M3). -/
theorem test_decode_keypad_timers :
    decode 0xE39E = some (.skp 0x3) ∧ decode 0xE3A1 = some (.sknp 0x3) ∧ decode 0xF50A = some (.ldVxK 0x5) ∧
    decode 0xF207 = some (.ldVxDt 0x2) ∧ decode 0xF215 = some (.ldDtVx 0x2) ∧
    decode 0xF218 = some (.ldStVx 0x2) := by decide

/-- Index and memory (X1 to X13). -/
theorem test_decode_index :
    decode 0xF31E = some (.addI 0x3) ∧ decode 0xF329 = some (.ldF 0x3) ∧ decode 0xF333 = some (.ldB 0x3) ∧
    decode 0xF255 = some (.ldMemVx 0x2) ∧ decode 0xF265 = some (.ldVxMem 0x2) := by decide

/-- The fields of R91 in their order: `x` is w[11:8], `y` w[7:4], the rest the low bits (A15, S2, I1). -/
theorem test_operands :
    Format.rr.operands 0x8125 = [1, 2] ∧ Format.rrn.operands 0xD015 = [0, 1, 5] ∧ Format.ri.operands 0x6A7F = [10, 127] ∧
    (decode 0x8125).map Instr.operands = some [1, 2] := by decide

/-- On bytes: too few of them, and no instruction, each by name. -/
theorem test_decodeBytes_refusals :
    decodeBytes [0x60] = .error .truncated ∧ decodeBytes [0x01, 0x23] = .error (.noInstruction 0x0123) := by decide

/-- The host's numbering: bit 0 is the least significant bit of the word (spec/opcode_table.json). -/
theorem test_decodeTableWord : decodeTableWord 16 0x6A7F = some (.ldImm 0xA 0x7F) := by decide

/-! ### Execute cycle and faults -/

/-- E1: nothing loaded. -/
theorem test_step_reset :
    (next State.reset).pc = 0x0202 ∧ record (next State.reset) = (.decodeFault, 0x0000, 0x0200) := by decide

/-- E2: 4094 is the last address that can be fetched from. -/
theorem test_step_lastAddress : (run 0x1200 (State.reset.setPc 0x0FFE)).pc = 0x0200 := by decide

/-- E3, E5: PC above it. -/
theorem test_step_pcOutOfBounds :
    record (next (State.reset.setPc 0x0FFF)) = (.pcOutOfBounds, 0x0000, 0x0FFF) ∧
    (next (State.reset.setPc 0xFFFF)).pc = 0xFFFF := by decide

/-- E6: a halted block. -/
theorem test_step_halted :
    next ((State.reset.setPc 0x0212).raise .decodeFault 0x0210 0) =
      ((State.reset.setPc 0x0212).raise .decodeFault 0x0210 0).dropInputs := by decide

/-- E8: an odd address. -/
theorem test_step_oddAddress : (run 0x6107 (State.reset.setPc 0x0203)).reg 0x1 = 0x07 := by decide

/-- E13: the status of a STEP that faults, and of one that does not (T3). -/
theorem test_step_status :
    (run 0xE39F State.reset).status = .fault .decodeFault ∧ (run 0x1228 State.reset).status = .success := by decide

/-! ### Control transfer -/

/-- T1. -/
theorem test_ret : (run 0x00EE (withDepth 1)).pc = 0x0202 ∧ (run 0x00EE (withDepth 1)).sp = 0 := by decide

/-- S5: nothing to return to. -/
theorem test_ret_underflow :
    (run 0x00EE State.reset).pc = 0x0202 ∧ record (run 0x00EE State.reset) = (.stackUnderflow, 0x00EE, 0x0200) := by
  decide

/-- T4. -/
theorem test_jp : (run 0x1FFF State.reset).pc = 0x0FFF := by decide

/-- T6. -/
theorem test_call :
    (run 0x2300 (State.reset.setPc 0x0202)).pc = 0x0300 ∧ (run 0x2300 (State.reset.setPc 0x0202)).sp = 1 ∧
    (run 0x2300 (State.reset.setPc 0x0202)).stack.get 0 = 0x0204 := by decide

/-- T7. -/
theorem test_call_overflow :
    record (run 0x2300 ((withDepth 16).setPc 0x0202)) = (.stackOverflow, 0x2300, 0x0202) ∧
    (run 0x2300 ((withDepth 16).setPc 0x0202)).pc = 0x0204 := by decide

/-- T9, T10. -/
theorem test_seImm :
    (run 0x332A (withRegs [(0x3, 0x2A)])).pc = 0x0204 ∧ (run 0x332A (withRegs [(0x3, 0x2B)])).pc = 0x0202 := by decide

/-- T11, T12. -/
theorem test_sneImm :
    (run 0x432A (withRegs [(0x3, 0x2A)])).pc = 0x0202 ∧ (run 0x432A State.reset).pc = 0x0204 := by decide

/-- T14, T15. -/
theorem test_seReg :
    (run 0x5120 (withRegs [(0x1, 0x07), (0x2, 0x08)])).pc = 0x0202 ∧ (run 0x5330 State.reset).pc = 0x0204 := by decide

/-- T16, T18. -/
theorem test_sneReg :
    (run 0x9120 (withRegs [(0x1, 0x07), (0x2, 0x08)])).pc = 0x0204 ∧ (run 0x9AA0 (withRegs [(0xA, 0x09)])).pc = 0x0202 := by
  decide

/-- T20: not reduced to 12 bits. -/
theorem test_jpV0 : (run 0xBFFF (withRegs [(0x0, 0x01)])).pc = 0x1000 := by decide

/-! ### Immediate and random -/

/-- I2. -/
theorem test_ldImm : (run 0x6F01 State.reset).reg 0xF = 0x01 := by decide

/-- I3. -/
theorem test_addImm :
    (run 0x7001 (withRegs [(0x0, 0xFF), (0xF, 0x55)])).reg 0x0 = 0x00 ∧
    (run 0x7001 (withRegs [(0x0, 0xFF), (0xF, 0x55)])).reg 0xF = 0x55 := by decide

/-- I8. -/
theorem test_ldI : (run 0xAFFF (State.reset.setI 0xFFFF)).i = 0x0FFF := by decide

/-- I9. -/
theorem test_rnd : (run 0xC30F (pending [.step 0x0000 0xA7])).reg 0x3 = 0x07 := by decide

/-! ### Display -/

/-- The values of SpriteLine that 95_test_vectors.md 2.4 gives. -/
theorem test_spriteLine :
    spriteLine 0xFF 60 = 0xF00000000000000F ∧ spriteLine 0x81 63 = 0x0200000000000001 ∧
    spriteLine 0xFF 64 = 0xFF00000000000000 ∧ spriteLine 0xA5 200 = 0x00A5000000000000 := by decide

/-- G1. -/
theorem test_cls : (run 0x00E0 (State.reset.setDisplay (Vector.replicate 32 0x1))).fb.get 31 = 0 := by decide

/-- S3: horizontal wrap. -/
theorem test_drw_wraps :
    (run 0xD011 (((withData 0x300 [0xA5]).setReg 0x0 60).setReg 0x1 5)).fb.get 5 = 0x500000000000000A := by decide

/-- G2: VF is the OR over the rows. -/
theorem test_drw_collision :
    (run 0xD012 ((withData 0x300 [0x80, 0x80]).setDisplay
      ((Vector.replicate 32 0).set 0 0x8000000000000000))).reg 0xF = 0x01 := by decide

/-! ### Arithmetic and logic -/

/-- The register file of the vectors of 2.5 with V1 and V2. -/
def v12 (a b : Byte) : State := withRegs [(0x1, a), (0x2, b)]

/-- R181: `y` = 15 copies VF out. -/
theorem test_ldReg : (run 0x81F0 (withRegs [(0xF, 0x3C)])).reg 0x1 = 0x3C := by decide

/-- R182: one bit of each kind. -/
theorem test_or : (run 0x8121 (v12 0x0C 0x0A)).reg 0x1 = 0x0E := by decide

/-- R183. -/
theorem test_and : (run 0x8122 (v12 0x0C 0x0A)).reg 0x1 = 0x08 := by decide

/-- R184. -/
theorem test_xor : (run 0x8123 (v12 0x0C 0x0A)).reg 0x1 = 0x06 := by decide

/-- S1. -/
theorem test_addReg :
    (run 0x8124 (v12 0xC8 0x64)).reg 0x1 = 0x2C ∧ (run 0x8124 (v12 0xC8 0x64)).reg 0xF = 0x01 := by decide

/-- A11: `x` = 15, the flag stays. -/
theorem test_addReg_intoVf : (run 0x8F14 (withRegs [(0xF, 0xF0), (0x1, 0x20)])).reg 0xF = 0x01 := by decide

/-- A15. -/
theorem test_sub :
    (run 0x8125 (v12 0x03 0x0A)).reg 0x1 = 0xF9 ∧ (run 0x8125 (v12 0x03 0x0A)).reg 0xF = 0x00 := by decide

/-- A16: equal operands need no borrow. -/
theorem test_sub_equal : (run 0x8125 (v12 0x07 0x07)).reg 0xF = 0x01 := by decide

/-- A20, A23. -/
theorem test_shr :
    (run 0x8126 (v12 0x05 0xFF)).reg 0x1 = 0x02 ∧ (run 0x8126 (v12 0x05 0xFF)).reg 0xF = 0x01 ∧
    (run 0x8F06 (withRegs [(0xF, 0x02)])).reg 0xF = 0x00 := by decide

/-- A25. -/
theorem test_subn :
    (run 0x8127 (v12 0x0A 0x03)).reg 0x1 = 0xF9 ∧ (run 0x8127 (v12 0x0A 0x03)).reg 0xF = 0x00 := by decide

/-- A27, A30. -/
theorem test_shl :
    (run 0x812E (v12 0x81 0xFF)).reg 0x1 = 0x02 ∧ (run 0x812E (v12 0x81 0xFF)).reg 0xF = 0x01 ∧
    (run 0x8F0E (withRegs [(0xF, 0x7F)])).reg 0xF = 0x00 := by decide

/-! ### Keypad and timers -/

/-- The state of the keypad vectors: V3 and the held keys. -/
def holding (v3 : Byte) (keys : BitVec 16) : State := (pending [.step keys 0x00]).setReg 0x3 v3

/-- K2, K5. -/
theorem test_skp :
    (run 0xE39E (holding 0x0A 0x0400)).pc = 0x0204 ∧ (run 0xE39E (holding 0x1A 0xFFFF)).pc = 0x0202 := by decide

/-- K3, K6. -/
theorem test_sknp :
    (run 0xE3A1 (holding 0x0A 0x0400)).pc = 0x0202 ∧ (run 0xE3A1 (holding 0x1A 0xFFFF)).pc = 0x0204 := by decide

/-- K9. -/
theorem test_ldVxK :
    (run 0xF50A (State.reset.setKeyq [7, 2, 7])).reg 0x5 = 0x07 ∧
    (run 0xF50A (State.reset.setKeyq [7, 2, 7])).keyq = [] := by decide

/-- K8: held keys do not end the wait. -/
theorem test_ldVxK_waits : (run 0xF50A (pending [.step 0xFFFF 0x00])).pc = 0x0200 := by decide

/-- M1. -/
theorem test_ldVxDt : (run 0xF207 (State.reset.setDt 0x3C)).reg 0x2 = 0x3C := by decide

/-- M2. -/
theorem test_ldDtVx : (run 0xF215 (withRegs [(0x2, 0xFF)])).dt = 0xFF := by decide

/-- M3. -/
theorem test_ldStVx :
    (run 0xF218 (withRegs [(0x2, 0x05)])).st = 0x05 ∧ (run 0xF218 (withRegs [(0x2, 0x05)])).dt = 0x00 := by decide

/-! ### Index and memory -/

/-- X2. -/
theorem test_addI : (run 0xF31E ((withRegs [(0x3, 0x02)]).setI 0xFFFF)).i = 0x0001 := by decide

/-- X5. -/
theorem test_ldF : (run 0xF329 (withRegs [(0x3, 0xFF)])).i = 0x04FB := by decide

/-- S7. -/
theorem test_ldB :
    (run 0xF333 ((withRegs [(0x3, 0x9D)]).setI 0x300)).mem.readBlock 0x300 4 = [0x01, 0x05, 0x07, 0x00] := by decide

/-- X9. -/
theorem test_ldB_outOfRange :
    record (run 0xF333 ((withRegs [(0x3, 0x64)]).setI 0x0FFE)) = (.memoryOutOfBounds, 0xF333, 0x0200) := by decide

/-- X10. -/
theorem test_ldMemVx :
    (run 0xF255 ((withRegs [(0x0, 0x11), (0x1, 0x22), (0x2, 0x33), (0x3, 0x44)]).setI 0x300)).mem.readBlock 0x300 4 =
      [0x11, 0x22, 0x33, 0x00] := by decide

/-- X12: nothing is stored. -/
theorem test_ldMemVx_outOfRange :
    (run 0xF155 ((withRegs [(0x0, 0xAB)]).setI 0x0FFF)).mem.read 0xFFF = 0x00 := by decide

/-- X14: the digits 0, 1 and 2 (the font table of R23). -/
theorem test_ldVxMem :
    (run 0xFF65 State.reset).v.toList =
      [0xF0, 0x90, 0x90, 0x90, 0xF0, 0x20, 0x60, 0x20, 0x20, 0x70, 0xF0, 0x10, 0xF0, 0x80, 0xF0, 0xF0] := by decide

/-- X13: V3 keeps its value. -/
theorem test_ldVxMem_rest : (run 0xF265 ((withData 0x300 [1, 2, 3, 4]).setReg 0x3 0x99)).reg 0x3 = 0x99 := by decide

/-! ### The operations of the surrounding system -/

/-- O1. -/
theorem test_reset : next { (withDepth 16).raise .stackOverflow 0 0 with env := [.reset] } = State.reset := by decide

/-- M8: no wrap below zero. -/
theorem test_tick :
    (next (((pending [.tick]).setDt 0xFF).setSt 0x01)).dt = 0xFE ∧ (next ((pending [.tick]).setDt 0xFF)).st = 0x00 := by
  decide

/-- O2, O3. -/
theorem test_load :
    (next (pending [.load 0xFFF [0xAA]])).mem.read 0xFFF = 0xAA ∧ (next (pending [.load 0xFFF [0xAA, 0xBB]])).mem = [] := by
  decide

/-- O10. -/
theorem test_keyEvent : (next ((pending [.keyEvent 3]).setKeyq [3])).keyq = [3, 3] := by decide

/-! ### Witnesses: the hypotheses of each statement are met -/

/-- The word `w` placed at PC, with the next STEP's inputs. -/
def placed (w : Nat) : State := (pending [.step 0x0400 0xA7]).withFetchWord 16 w

/-- EncodeInvertsDecode. -/
theorem test_meets_encodeInvertsDecode : decode 0x812E = some (.shl 0x1 0x2) := by decide

/-- NoWordMatchesTwoRows. -/
theorem test_meets_noWordMatchesTwoRows :
    (⟨"SHL", .rr, 0x800E⟩ : OpcodeRow) ∈ opcodeTable ∧ (⟨"SHL", .rr, 0x800E⟩ : OpcodeRow).accepts 0x812E = true := by
  decide

/-- StepRunsTheDecodedInstruction, at the last address that can be fetched from (E2). -/
theorem test_meets_stepRuns :
    let s := (State.reset.setPc 0x0FFE).withFetchWord 16 0x1200
    s.stepIsNext = true ∧ s.halt = false ∧ s.pc.toNat = 4094 ∧
      decodeBytes (s.mem.readBlock s.pc.toNat 2) = .ok (.jp 0x200, []) := by decide

/-- FetchIsBigEndianAndCurrent, at 4094. -/
theorem test_meets_fetch : (State.reset.setPc 0x0FFE).pc.toNat ≤ 4094 ∧ (State.reset.setPc 0x0FFE).mem.wf := by decide

/-- UndecodableWordFaults (E9). -/
theorem test_meets_undecodable : (placed 0x5121).Fetches ∧ decode (placed 0x5121).fetchWord = none :=
  ⟨⟨by decide, by decide, by decide⟩, by decide⟩

/-- PcOutOfRangeFaults, at 4095 (E3). -/
theorem test_meets_pcOutOfRange :
    let s := State.reset.setPc 0x0FFF
    s.stepIsNext = true ∧ s.halt = false ∧ s.pc.toNat > 4094 := by decide

/-- HaltedStepChangesNothing. -/
theorem test_meets_halted :
    let s := State.reset.raise .decodeFault 0 0
    s.stepIsNext = true ∧ s.halt = true := by decide

/-- FaultsArePrecise, both clauses: nothing fetched at 4095, a word fetched at 4094. -/
theorem test_meets_faultsArePrecise :
    let s := State.reset.setPc 0x0FFF
    let u := State.reset.setPc 0x0FFE
    (s.stepIsNext = true ∧ s.halt = false ∧ step s = .next (next s) ∧ (next s).halt = true ∧ s.pc.toNat > 4094) ∧
    (u.stepIsNext = true ∧ u.halt = false ∧ step u = .next (next u) ∧ (next u).halt = true ∧ u.pc.toNat ≤ 4094) :=
  ⟨⟨rfl, rfl, rfl, rfl, by decide⟩, ⟨rfl, rfl, rfl, rfl, by decide⟩⟩

/-- InputsReachOnlyThreeInstructions, both clauses: the word fetched is CLS. -/
theorem test_meets_inputs :
    (∀ x, decode (placed 0x00E0).fetchWord ≠ some (.skp x)) ∧ (∀ x, decode (placed 0x00E0).fetchWord ≠ some (.sknp x)) ∧
    (∀ x kk, decode (placed 0x00E0).fetchWord ≠ some (.rnd x kk)) := by
  rw [show decode (placed 0x00E0).fetchWord = some .cls by decide]
  simp

/-- EachStateHasItsWriters, all its clauses, and FlagIsZeroOrOne, its second: an instruction that writes none of them. -/
theorem test_meets_writers :
    exec (.jp 0x300) State.reset = .next (State.reset.setPc 0x0300) ∧
    (Instr.jp 0x300).mnemonic ∉ ["LD_VX_K", "LD_DT_VX", "LD_ST_VX", "CLS", "DRW", "LD_B", "LD_MEM_VX", "CALL", "RET",
      "LD_I", "ADD_I", "LD_F"] ∧
    (Instr.jp 0x300).mnemonic ∉ flagWriters ∧ destination (.jp 0x300) ≠ some 0xF :=
  ⟨rfl, by decide, by decide, by decide⟩

/-- FlagIsZeroOrOne, the first clause: a flag writer, running before and after. -/
theorem test_meets_flag :
    exec (.addReg 0x1 0x2) State.reset = .next (State.reset.setReg 0xF 0x00) ∧
    (Instr.addReg 0x1 0x2).mnemonic ∈ flagWriters ∧ (State.reset.setReg 0xF 0x00).halt = false :=
  ⟨rfl, by decide, by decide⟩

/-- OnlyTheSpecsConditionsHalt: its hypotheses with CALL at depths 15 and 16, RET at 1 and 0. -/
theorem test_meets_halting_stack :
    (withDepth 15).halt = false ∧ exec (.call 0x300) (withDepth 15) = .next (((withDepth 15).push 0x0200 (by decide)).setPc 0x0300) ∧
    exec (.call 0x300) (withDepth 16) = .next ((withDepth 16).raise .stackOverflow 0x01FE 0x2300) ∧
    exec .ret (withDepth 1) = .next ((withDepth 1).pop.setPc 0x0202) ∧
    exec .ret State.reset = .next (State.reset.raise .stackUnderflow 0x01FE 0x00EE) :=
  ⟨rfl, rfl, rfl, rfl, rfl⟩

/-- OnlyTheSpecsConditionsHalt: its hypotheses with an access at the last address and one above it. -/
theorem test_meets_halting_memory :
    exec (.ldVxMem 0x0) (State.reset.setI 0x0FFF) = .next (State.reset.setI 0x0FFF) ∧
    exec (.ldVxMem 0x1) (State.reset.setI 0x0FFF) =
      .next ((State.reset.setI 0x0FFF).raise .memoryOutOfBounds 0x01FE 0xF165) ∧
    exec (.ldB 0x0) (State.reset.setI 0x0FFD) = .next (State.reset.setI 0x0FFD) ∧
    exec (.ldB 0x0) (State.reset.setI 0x0FFE) =
      .next ((State.reset.setI 0x0FFE).raise .memoryOutOfBounds 0x01FE 0xF033) :=
  ⟨rfl, rfl, rfl, rfl⟩

/-- StepKeepsTheInvariant: the state after RESET meets the invariant and steps. -/
theorem test_meets_invariant : State.reset.Inv ∧ step State.reset = .next (next State.reset) :=
  ⟨⟨by decide, ⟨by decide, by decide, by decide, by decide, by decide, by decide, by decide⟩, by decide, by decide⟩,
    rfl⟩

/-- CanonicalMemoryIsItsContents: two equal memories, reached by different writes. -/
theorem test_meets_canonical :
    let m := Memory.write (Memory.write [] 0x300 1) 0x200 2
    let m' := Memory.write (Memory.write (Memory.write [] 0x200 2) 0x300 3) 0x300 1
    m.wf ∧ m'.wf ∧ m = m' := by decide

/-- ResetLeavesTheResetState, TickCountsTimersDown, KeyEventAppendsTheKey. -/
theorem test_meets_operations :
    (pending [.reset]).env = [.reset] ∧ (pending [.tick]).env = [.tick] ∧ (pending [.keyEvent 3]).env = [.keyEvent 3] := by
  decide

/-- EntryPointIsFixed, its two clauses: a RESET, operations that are no STEP, and a STEP that fetches the word loaded at 0x200
(S8); a RESET alone, and a STEP that fetches 0x0000 (E1). -/
theorem test_meets_entryPoint :
    let ops : List Operation := [.keyEvent 3, .load 0x300 [0x60], .load 0x200 [0x00, 0xE0], .tick]
    (pending (.reset :: (ops ++ []))).env = .reset :: (ops ++ []) ∧ (∀ op ∈ ops, op.isStep = false) ∧
      decode ((State.reset.load 0x200 [0x00, 0xE0]).mem.read 0x200 ++
        (State.reset.load 0x200 [0x00, 0xE0]).mem.read 0x201) = some .cls ∧
      State.reset.stepIsNext = true ∧ decode (State.reset.mem.read 0x200 ++ State.reset.mem.read 0x201) = none := by decide

/-- OperationsSeeOnlyTheBlock: one block, one operation pending, two surrounding systems. -/
theorem test_meets_onlyTheBlock :
    (placed 0xC30F).toBlock = { placed 0xC30F with env := [.step 0x0400 0xA7, .tick], sampled := 9 : State }.toBlock ∧
    (placed 0xC30F).env = [.step 0x0400 0xA7] := by decide

/-- LoadWritesItsBytes, at the top of memory with one byte (O2) and with none (O4). -/
theorem test_meets_load :
    State.reset.mem.wf ∧ (pending [.load 0xFFF [0xAA]]).env = [.load 0xFFF [0xAA]] ∧ 0xFFF + [(0xAA : Byte)].length ≤ 4096 ∧
    (pending [.load 0x1000 []]).env = [.load 0x1000 []] ∧ 0x1000 + ([] : List Byte).length ≤ 4096 := by decide

/-- OverrunningLoadWritesNothing (O3, O5). -/
theorem test_meets_overrun :
    (pending [.load 0xFFF [0xAA, 0xBB]]).env = [.load 0xFFF [0xAA, 0xBB]] ∧ 0xFFF + [(0xAA : Byte), 0xBB].length > 4096 ∧
    (pending [.load 0x1001 []]).env = [.load 0x1001 []] ∧ 0x1001 + ([] : List Byte).length > 4096 := by decide

/-- RndMasksTheRandomByte and KeySkipsAskTheHeldKeys: a STEP with its inputs pending, and none pending. -/
theorem test_meets_inputsPending : (placed 0xC30F).env = [.step 0x0400 0xA7] ∧ State.reset.env = [] := by decide

/-- KeySkipsAskTheHeldKeys, its two cases at key 15 and at 16, which is no key. -/
theorem test_meets_keyCodes :
    ((holding 0x0F 0x8000).reg 0x3).toNat < 16 ∧ (holding 0x0F 0x8000).keysHeld.getLsbD 15 = true ∧
    ¬ ((holding 0x10 0xFFFF).reg 0x3).toNat < 16 := by decide

/-- AddRegAddsAndCarries, SubtractionsFlagNoBorrow, ShiftsReportTheBitOut: `x` other than 15. -/
theorem test_meets_notVf : (0xE : RegNum) ≠ 0xF := by decide

/-- CallPushesTheNextAddress and ReturnUndoesCall at depth 15, RetPopsTheReturnAddress at depths 1 and 16. -/
theorem test_meets_stack :
    (withDepth 15).sp.val < 16 ∧ (withDepth 1).sp.val = (0 : Fin 16).val + 1 ∧
    (withDepth 16).sp.val = (15 : Fin 16).val + 1 := by decide

/-- StackFaultsLeaveTheStack, both clauses. -/
theorem test_meets_stackFaults : (withDepth 16).sp.val = 16 ∧ State.reset.sp.val = 0 := by decide

/-- DrwTogglesTheSpritesPixels: no row with I anywhere (G4), one row at 4095 (G5), 15 rows at 4081 (G7). -/
theorem test_meets_drw :
    ((0 : Nibble).toNat = 0 ∨ (State.reset.setI 0xFFFF).i.toNat + (0 : Nibble).toNat - 1 ≤ 4095) ∧
    (State.reset.setI 0x0FFF).i.toNat + (1 : Nibble).toNat - 1 ≤ 4095 ∧
    (State.reset.setI 0x0FF1).i.toNat + (15 : Nibble).toNat - 1 ≤ 4095 := by decide

/-- DrawTwiceAndWraparound: all three clauses with five rows at the top of memory (S2, S3, S4); the second with no row. -/
theorem test_meets_drawTwice :
    let s := ((withData 0x0FFB [0x80, 0x80, 0x80, 0x80, 0x80]).setReg 0x0 60).setReg 0x1 30
    (0x0 : RegNum) ≠ 0xF ∧ (0x1 : RegNum) ≠ 0xF ∧ s.i.toNat + (5 : Nibble).toNat - 1 ≤ 4095 ∧ s.reg 0x0 = 60 ∧
      s.reg 0x1 = 30 ∧ s.i.toNat + 4 ≤ 4095 ∧ (0 : Nibble).toNat = 0 := by decide

/-- WaitForKeyRewindsOrDelivers, both clauses. -/
theorem test_meets_waitForKey : State.reset.keyq = [] ∧ (State.reset.setKeyq [7, 2, 7]).keyq = 7 :: [2, 7] := by decide

/-- LdBStoresDecimalDigits at 4093, LdMemVxStoresRegisters, LdVxMemLoadsRegisters and StoreThenLoadRestoresRegisters at
4095 with one register and at 4080 with sixteen. -/
theorem test_meets_memory :
    (State.reset.setI 0x0FFD).mem.wf ∧ (State.reset.setI 0x0FFD).i.toNat + 2 ≤ 4095 ∧
    (State.reset.setI 0x0FFF).i.toNat + (0x0 : RegNum).toNat ≤ 4095 ∧
    (State.reset.setI 0x0FF0).i.toNat + (0xF : RegNum).toNat ≤ 4095 := by decide

/-- AccessAboveMemoryFaults, each clause one byte above the last (G8, X9, X16, X17). -/
theorem test_meets_accessAbove :
    (1 ≤ (1 : Nibble).toNat ∧ (State.reset.setI 0x1000).i.toNat + (1 : Nibble).toNat - 1 > 4095) ∧
    (State.reset.setI 0x0FFE).i.toNat + 2 > 4095 ∧ (State.reset.setI 0x1000).i.toNat + (0x0 : RegNum).toNat > 4095 ∧
    (State.reset.setI 0x0FF1).i.toNat + (0xF : RegNum).toNat > 4095 := by decide

end Sys2Proof.Tests
end

section
/-! SUPPORT. The immediate and random instructions (42_immediate_and_random.md). -/

namespace Sys2Proof.Machine

/-- Settles O27: the meaning is one write of Vx by a byte sum, and its frame is that of the write (R161). -/
theorem addImmWrapsWithoutFlag : Obligations.AddImmWrapsWithoutFlag := by
  intro x kk s
  have hexec : exec (.addImm x kk) s = .next (s.setReg x (s.reg x + kk)) := rfl
  have hsum : ((s.setReg x (s.reg x + kk)).reg x).toNat = ((s.reg x).toNat + kk.toNat) % 256 := by
    rw [State.reg_setReg_same, BitVec.toNat_add]
  exact ⟨rfl, _, hexec, hsum, s.changesOnly_setReg x _⟩

end Sys2Proof.Machine
end

section
/-! SUPPORT. The display instructions (43_display.md). -/

namespace Sys2Proof.Machine

theorem row_mem_allRows (r : Fin 32) : Part.row r ∈ allRows :=
  List.mem_map_of_mem (List.mem_finRange r)

/-- Replacing the display changes its rows only. -/
theorem State.changesOnly_setDisplay (s : State) (f : FrameBuffer) : s.ChangesOnly (s.setDisplay f) allRows := by
  intro p hp
  cases p with
  | row r => exact absurd (row_mem_allRows r) hp
  | _ => simp [State.Keeps, State.reg]

/-- A pixel is the bit of its own row in the display that was set (R31). -/
theorem State.pixel_setDisplay (s : State) (f : FrameBuffer) (r : Fin 32) (c : Fin 64) :
    (s.setDisplay f).pixel r c = (f.get r).getLsbD (63 - c.val) := rfl

/-- Settles O42: the meaning is one write of the display by 32 zero rows, and its frame is that of the write (R170). -/
theorem clsClearsEveryPixel : Obligations.ClsClearsEveryPixel := by
  intro s
  have hexec : exec .cls s = .next (s.setDisplay (Vector.replicate 32 0)) := rfl
  have hclear (r : Fin 32) (c : Fin 64) : (s.setDisplay (Vector.replicate 32 0)).pixel r c = false := by
    rw [State.pixel_setDisplay, Vector.get_replicate]
    exact BitVec.getLsbD_zero
  exact ⟨rfl, _, hexec, hclear, s.changesOnly_setDisplay _⟩

end Sys2Proof.Machine
end

section
/-! SUPPORT. The register-to-register arithmetic and logic instructions (44_alu.md). -/

namespace Sys2Proof.Machine

/-- Settles O30: the meaning is one write of Vx by what Vy held, so no register number is a special case, and its frame is
that of the write (R181). -/
theorem ldRegCopies : Obligations.LdRegCopies := by
  intro x y s
  have hexec : exec (.ldReg x y) s = .next (s.setReg x (s.reg y)) := rfl
  have hcopy : (s.setReg x (s.reg y)).reg x = s.reg y := s.reg_setReg_same x _
  exact ⟨rfl, _, hexec, hcopy, s.changesOnly_setReg x _⟩

end Sys2Proof.Machine
end

section
/-! SUPPORT. The keypad instructions (45_keypad.md). -/

namespace Sys2Proof.Machine

/-- A part kept by two changes in a row is kept by both together. -/
theorem State.Keeps.trans {s t u : State} {p : Part} (hst : s.Keeps t p) (htu : t.Keeps u p) : s.Keeps u p := by
  cases p with
  | faultRecord =>
    obtain ⟨halt, kind, word, addr⟩ := hst
    obtain ⟨halt', kind', word', addr'⟩ := htu
    exact ⟨halt'.trans halt, kind'.trans kind, word'.trans word, addr'.trans addr⟩
  | _ => exact Eq.trans htu hst

/-- Two changes in a row change only what one of them changes, the later change's parts listed first. -/
theorem State.ChangesOnly.trans {s t u : State} {ps qs : List Part} (hst : s.ChangesOnly t ps)
    (htu : t.ChangesOnly u qs) : s.ChangesOnly u (qs ++ ps) := fun p hp =>
  (hst p fun h => hp (List.mem_append_right qs h)).trans (htu p fun h => hp (List.mem_append_left ps h))

theorem State.changesOnly_setKeyq (s : State) (q : List Key) : s.ChangesOnly (s.setKeyq q) [.keyq] := by
  intro p hp
  cases p with
  | keyq => exact absurd (List.mem_singleton_self _) hp
  | _ => simp [State.Keeps, State.reg]

/-- Settles O47: the wait has the frame of one write of PC, the delivery that of a write of KEYQ followed by one of Vx; the
queue decides which of the two clauses speaks (R203). -/
theorem waitForKeyRewindsOrDelivers : Obligations.WaitForKeyRewindsOrDelivers := by
  intro x s
  obtain ⟨hempty, hwait⟩ | ⟨k, rest, hqueued, hdeliver⟩ := execLdVxK_next x s
  · have hnoKey (k : Key) (rest : List Key) : s.keyq ≠ k :: rest := by simp [hempty]
    exact ⟨rfl, fun _ => ⟨_, hwait, rfl, s.changesOnly_setPc _⟩, fun k rest hq => absurd hq (hnoKey k rest)⟩
  · have hkey : (((s.setKeyq []).setReg x (zextKey k)).reg x).toNat = k.toNat := by
      rw [State.reg_setReg_same, zextKey_toNat]
    have hframe : s.ChangesOnly ((s.setKeyq []).setReg x (zextKey k)) [.reg x, .keyq] :=
      (s.changesOnly_setKeyq []).trans ((s.setKeyq []).changesOnly_setReg x (zextKey k))
    refine ⟨rfl, fun hq => absurd hq (by simp [hqueued]), fun k' rest' hq => ?_⟩
    obtain ⟨rfl, rfl⟩ : k = k' ∧ rest = rest' := List.cons.inj (hqueued.symm.trans hq)
    exact ⟨_, hdeliver, hkey, rfl, hframe⟩

end Sys2Proof.Machine
end

section
/-! SUPPORT. The timer instructions (46_timers.md). -/

namespace Sys2Proof.Machine

theorem State.changesOnly_setDt (s : State) (b : Byte) : s.ChangesOnly (s.setDt b) [.dt] := by
  intro p hp
  cases p with
  | dt => exact absurd (List.mem_singleton_self _) hp
  | _ => simp [State.Keeps, State.reg]

theorem State.changesOnly_setSt (s : State) (b : Byte) : s.ChangesOnly (s.setSt b) [.st] := by
  intro p hp
  cases p with
  | st => exact absurd (List.mem_singleton_self _) hp
  | _ => simp [State.Keeps, State.reg]

/-- Settles O48: each meaning is one write, of Vx, of DT or of ST, and its frame is that of the write; the read of DT writes
Vx alone and so keeps DT (R210, R211, R212). -/
theorem timerTransfers : Obligations.TimerTransfers := by
  intro x s
  have hread : exec (.ldVxDt x) s = .next (s.setReg x s.dt) := rfl
  have hdelay : exec (.ldDtVx x) s = .next (s.setDt (s.reg x)) := rfl
  have hsound : exec (.ldStVx x) s = .next (s.setSt (s.reg x)) := rfl
  refine ⟨rfl, rfl, rfl, ⟨_, hread, ?_, ?_⟩, ⟨_, hdelay, ?_, ?_⟩, ⟨_, hsound, ?_, ?_⟩⟩
  · exact s.reg_setReg_same x s.dt
  · exact s.changesOnly_setReg x s.dt
  · exact s.setDt_dt (s.reg x)
  · exact s.changesOnly_setDt (s.reg x)
  · exact s.setSt_st (s.reg x)
  · exact s.changesOnly_setSt (s.reg x)

end Sys2Proof.Machine
end

section
/-! SUPPORT. The address-register and memory instructions (47_index_and_memory.md). -/

namespace Sys2Proof.Machine

/-- Settles O50: the meaning is one write of I by the address of the digit sprite, which 16 bits hold as a number for every
byte, and its frame is that of the write (R221). -/
theorem ldFMultipliesByFive : Obligations.LdFMultipliesByFive := by
  intro x s
  have hexec : exec (.ldF x) s = .next (s.setI (digitSprite (s.reg x))) := rfl
  have haddress : (s.setI (digitSprite (s.reg x))).i.toNat = 5 * (s.reg x).toNat := by
    rw [State.setI_i, digitSprite_toNat]
  exact ⟨rfl, _, hexec, haddress, s.changesOnly_setI _⟩

end Sys2Proof.Machine
end

section
/-! SUPPORT. The operations of the surrounding system other than STEP (60_exceptions.md). -/

namespace Sys2Proof.Machine

/-- A frame may be stated with more parts, and in any order. -/
theorem State.ChangesOnly.mono {s t : State} {ps qs : List Part} (h : s.ChangesOnly t ps) (hsub : ps ⊆ qs) :
    s.ChangesOnly t qs := fun p hp => h p fun hmem => hp (hsub hmem)

/-- Having performed the pending operation leaves the whole block alone (log 2). -/
theorem State.changesOnly_dropOperation (s : State) : s.ChangesOnly s.dropOperation [.env] := by
  intro p hp
  cases p with
  | env => exact absurd (List.mem_singleton_self _) hp
  | _ => simp [State.Keeps, State.reg]

/-- Settles O23: the operation is one write of KEYQ whatever the block holds, after which it is no longer pending, and its
frame is that of the two changes in a row (R259; log 2). -/
theorem keyEventAppendsTheKey : Obligations.KeyEventAppendsTheKey := by
  intro s k rest hpending
  have hstep : step s = .next (s.keyEvent k).dropOperation := step_of_keyEvent hpending
  have hqueue : (s.keyEvent k).dropOperation.keyq = s.keyq ++ [k] := by simp
  have henv : (s.keyEvent k).dropOperation.env = rest := by simp [hpending]
  have hframe : s.ChangesOnly (s.keyEvent k).dropOperation [.env, .keyq] :=
    (s.changesOnly_setKeyq _).trans (s.keyEvent k).changesOnly_dropOperation
  exact ⟨_, hstep, hqueue, henv, hframe.mono (List.Perm.swap _ _ _).subset⟩

end Sys2Proof.Machine
end

section
/-! SUPPORT. The decoder, the encoder and the opcode map (30_encoding.md). -/

namespace Sys2Proof

/-! ### Decoding what was encoded -/

/-- Settles O1: the word of an instruction is its format's word, whose fields are the operands and whose opcode digits select
the instruction's own arm of the decoder, format by format (R92, R94, R95). -/
theorem decodeInvertsEncode : Obligations.DecodeInvertsEncode := by
  intro i
  cases i with
  | cls | ret => rfl
  | jp nnn | call nnn | ldI nnn | jpV0 nnn => simp only [encode, decode, fieldOp_wordA, fieldNnn_wordA]
  | seImm x kk | sneImm x kk | ldImm x kk | addImm x kk | rnd x kk =>
    simp only [encode, decode, fieldOp_wordRI, fieldX_wordRI, fieldKk_wordRI]
  | drw x y n =>
    simp only [encode, decode, fieldOp_wordRRN, fieldX_wordRRN, fieldY_wordRRN, fieldN_wordRRN]
  | seReg x y | sneReg x y =>
    simp only [encode, decode, fieldOp_wordRRN, fieldX_wordRRN, fieldY_wordRRN, fieldN_wordRRN, if_pos]
  | ldReg x y | or x y | and x y | xor x y | addReg x y | sub x y | shr x y | subn x y | shl x y =>
    simp only [encode, decode, decodeAlu, fieldOp_wordRRN, fieldX_wordRRN, fieldY_wordRRN, fieldN_wordRRN]
  | skp x | sknp x => simp only [encode, decode, decodeKey, fieldOp_wordRI, fieldX_wordRI, fieldKk_wordRI]
  | ldVxDt x | ldVxK x | ldDtVx x | ldStVx x | addI x | ldF x | ldB x | ldMemVx x | ldVxMem x =>
    simp only [encode, decode, decodeMisc, fieldOp_wordRI, fieldX_wordRI, fieldKk_wordRI]

/-! ### Encoding what was decoded -/

theorem encode_of_decodeAlu {x y : RegNum} {n : Nibble} {i : Instr} (h : decodeAlu x y n = some i) :
    encode i = 0x8#4 ++ x ++ y ++ n := by
  unfold decodeAlu at h
  split at h <;> cases h <;> rfl

theorem encode_of_decodeKey {x : RegNum} {kk : Byte} {i : Instr} (h : decodeKey x kk = some i) :
    encode i = 0xE#4 ++ x ++ kk := by
  unfold decodeKey at h
  split at h <;> cases h <;> rfl

theorem encode_of_decodeMisc {x : RegNum} {kk : Byte} {i : Instr} (h : decodeMisc x kk = some i) :
    encode i = 0xF#4 ++ x ++ kk := by
  unfold decodeMisc at h
  split at h <;> cases h <;> rfl

/-- Settles O2: each arm of the decoder is entered at one top nibble and keeps every other digit of the word, in an operand or
by testing it, so the encoder puts the same digits together again (R95, R99). -/
theorem encodeInvertsDecode : Obligations.EncodeInvertsDecode := by
  intro w i h
  have hA := word_eq_opNnn w
  have hRI := word_eq_opXKk w
  have hRRN := word_eq_opXYN w
  unfold decode at h
  split at h
  case h_1 =>
    split at h
    · cases h; exact Eq.symm ‹w = 0x00E0#16›
    · split at h <;> cases h
      exact Eq.symm ‹w = 0x00EE#16›
  case h_2 hop | h_3 hop | h_11 hop | h_12 hop => cases h; exact (hop ▸ hA).symm
  case h_4 hop | h_5 hop | h_7 hop | h_8 hop | h_13 hop => cases h; exact (hop ▸ hRI).symm
  case h_6 hop | h_10 hop =>
    split at h <;> cases h
    exact (hop ▸ ‹fieldN w = 0x0#4› ▸ hRRN).symm
  case h_9 hop => exact (encode_of_decodeAlu h).trans (hop ▸ hRRN).symm
  case h_14 hop => cases h; exact (hop ▸ hRRN).symm
  case h_15 hop => exact (encode_of_decodeKey h).trans (hop ▸ hRI).symm
  case h_16 hop => exact (encode_of_decodeMisc h).trans (hop ▸ hRI).symm
  case h_17 => cases h

/-! ### The opcode map -/

/-- Settles O4: a word that matches two rows gives both their patterns under both their masks, and no two rows of the 34 have
patterns that agree under both masks (R95). -/
theorem noWordMatchesTwoRows : Obligations.NoWordMatchesTwoRows := by
  intro w r₁ r₂ h₁ h₂ hw₁ hw₂
  have apart : ∀ r ∈ opcodeTable, ∀ q ∈ opcodeTable, r.pattern &&& q.format.mask = q.pattern &&& r.format.mask → r = q := by
    decide
  refine apart r₁ h₁ r₂ h₂ ?_
  rw [← eq_of_beq hw₁, ← eq_of_beq hw₂, BitVec.and_assoc, BitVec.and_assoc, BitVec.and_comm r₁.format.mask]

/-! ### The digits of a pattern -/

theorem fieldOp_ofNat (k : Nat) : fieldOp (BitVec.ofNat 16 k) = BitVec.ofNat 4 (k / 4096) := by
  apply BitVec.eq_of_toNat_eq
  rw [fieldOp_toNat, BitVec.toNat_ofNat, BitVec.toNat_ofNat]
  omega

theorem fieldN_ofNat (k : Nat) : fieldN (BitVec.ofNat 16 k) = BitVec.ofNat 4 k := by
  apply BitVec.eq_of_toNat_eq
  rw [fieldN_toNat, BitVec.toNat_ofNat, BitVec.toNat_ofNat]
  omega

theorem fieldKk_ofNat (k : Nat) : fieldKk (BitVec.ofNat 16 k) = BitVec.ofNat 8 k := by
  apply BitVec.eq_of_toNat_eq
  rw [fieldKk_toNat, BitVec.toNat_ofNat, BitVec.toNat_ofNat]
  omega

/-! ### A word that matches a row has the row's opcode digits (R92) -/

theorem OpcodeRow.pattern_of_accepts {r : OpcodeRow} {w : Word} (h : r.accepts w = true) :
    r.pattern = w &&& r.format.mask := (eq_of_beq h).symm

/-- Every format has the top nibble among its opcode bits. -/
theorem OpcodeRow.fieldOp_of_accepts {r : OpcodeRow} {w : Word} (h : r.accepts w = true) :
    fieldOp w = fieldOp r.pattern := by
  rw [r.pattern_of_accepts h]
  cases r.format with
  | e => rw [Format.mask, and_maskAll]
  | a | ri | rrn => rw [Format.mask, and_maskTop, fieldOp_wordA]
  | rr => rw [Format.mask, and_maskTopLow, fieldOp_wordRRN]
  | rx => rw [Format.mask, and_maskTopByte, fieldOp_wordRI]

theorem OpcodeRow.fieldN_of_accepts {r : OpcodeRow} {w : Word} (h : r.accepts w = true) (hf : r.format = .rr) :
    fieldN w = fieldN r.pattern := by
  rw [r.pattern_of_accepts h, hf, Format.mask, and_maskTopLow, fieldN_wordRRN]

theorem OpcodeRow.fieldKk_of_accepts {r : OpcodeRow} {w : Word} (h : r.accepts w = true) (hf : r.format = .rx) :
    fieldKk w = fieldKk r.pattern := by
  rw [r.pattern_of_accepts h, hf, Format.mask, and_maskTopByte, fieldKk_wordRI]

theorem OpcodeRow.eq_pattern_of_accepts {r : OpcodeRow} {w : Word} (h : r.accepts w = true) (hf : r.format = .e) :
    w = r.pattern := by
  rw [r.pattern_of_accepts h, hf, Format.mask, and_maskAll]

/-! ### The decoder answers the row a word matches -/

/-- The decoded instruction has the mnemonic of the row and, as operands, the fields the row's format names. -/
def OpcodeRow.ReadsAs (r : OpcodeRow) (w : Word) : Prop :=
  ∃ i, decode w = some i ∧ i.mnemonic = r.mnemonic ∧ i.operands = r.format.operands w

theorem readsAs_of_topNibble {r : OpcodeRow} {w : Word} (hr : r ∈ opcodeRowsByTopNibble) (h : r.accepts w = true) :
    r.ReadsAs w := by
  have hop := r.fieldOp_of_accepts h
  have hw := r.eq_pattern_of_accepts h
  simp only [opcodeRowsByTopNibble, List.mem_cons, List.not_mem_nil, or_false] at hr
  rcases hr with rfl | rfl | rfl | rfl | rfl | rfl | rfl | rfl | rfl | rfl | rfl | rfl
  case inl => exact ⟨.cls, hw rfl ▸ rfl, rfl, rfl⟩
  case inr.inl => exact ⟨.ret, hw rfl ▸ rfl, rfl, rfl⟩
  all_goals
    simp [OpcodeRow.ReadsAs, decode, hop, fieldOp_ofNat, Instr.mnemonic, Instr.operands, Format.operands, fieldX_toNat,
      fieldY_toNat, fieldN_toNat, fieldKk_toNat, fieldNnn_toNat]

theorem readsAs_of_regReg {r : OpcodeRow} {w : Word} (hr : r ∈ opcodeRowsRegReg) (h : r.accepts w = true) :
    r.ReadsAs w := by
  have hop := r.fieldOp_of_accepts h
  have hn := r.fieldN_of_accepts h
  simp only [opcodeRowsRegReg, List.mem_cons, List.not_mem_nil, or_false] at hr
  rcases hr with rfl | rfl | rfl | rfl | rfl | rfl | rfl | rfl | rfl | rfl | rfl
  all_goals
    simp [OpcodeRow.ReadsAs, decode, decodeAlu, hop, hn rfl, fieldOp_ofNat, fieldN_ofNat, Instr.mnemonic, Instr.operands,
      Format.operands, fieldX_toNat, fieldY_toNat]

theorem readsAs_of_reg {r : OpcodeRow} {w : Word} (hr : r ∈ opcodeRowsReg) (h : r.accepts w = true) :
    r.ReadsAs w := by
  have hop := r.fieldOp_of_accepts h
  have hkk := r.fieldKk_of_accepts h
  simp only [opcodeRowsReg, List.mem_cons, List.not_mem_nil, or_false] at hr
  rcases hr with rfl | rfl | rfl | rfl | rfl | rfl | rfl | rfl | rfl | rfl | rfl
  all_goals
    simp [OpcodeRow.ReadsAs, decode, decodeKey, decodeMisc, hop, hkk rfl, fieldOp_ofNat, fieldKk_ofNat, Instr.mnemonic,
      Instr.operands, Format.operands, fieldX_toNat]

/-- A word that matches a row of the map decodes to the row's instruction on the row's fields (R94, R95). -/
theorem readsAs_of_accepts {r : OpcodeRow} {w : Word} (hr : r ∈ opcodeTable) (h : r.accepts w = true) : r.ReadsAs w := by
  simp only [opcodeTable, List.mem_append] at hr
  obtain (hr | hr) | hr := hr
  · exact readsAs_of_topNibble hr h
  · exact readsAs_of_regReg hr h
  · exact readsAs_of_reg hr h

open Laws in
/-- Every word the encoder gives matches a row of the map (R95). -/
theorem exists_row_accepts_encode (i : Instr) : ∃ r ∈ opcodeTable, r.accepts (encode i) = true := by
  have of_statement {i : Instr} (h : EncodedWord.Statement i) : ∃ r ∈ opcodeTable, r.accepts (encode i) = true := by
    obtain ⟨r, hr, -, hw⟩ := h
    exact ⟨r, hr, hw⟩
  apply of_statement
  cases i
  exacts [EncodedWord.cls, EncodedWord.ret, EncodedWord.jp _, EncodedWord.call _, EncodedWord.seImm _ _,
    EncodedWord.sneImm _ _, EncodedWord.seReg _ _, EncodedWord.ldImm _ _, EncodedWord.addImm _ _, EncodedWord.ldReg _ _,
    EncodedWord.or _ _, EncodedWord.and _ _, EncodedWord.xor _ _, EncodedWord.addReg _ _, EncodedWord.sub _ _,
    EncodedWord.shr _ _, EncodedWord.subn _ _, EncodedWord.shl _ _, EncodedWord.sneReg _ _, EncodedWord.ldI _,
    EncodedWord.jpV0 _, EncodedWord.rnd _ _, EncodedWord.drw _ _ _, EncodedWord.skp _, EncodedWord.sknp _,
    EncodedWord.ldVxDt _, EncodedWord.ldVxK _, EncodedWord.ldDtVx _, EncodedWord.ldStVx _, EncodedWord.addI _,
    EncodedWord.ldF _, EncodedWord.ldB _, EncodedWord.ldMemVx _, EncodedWord.ldVxMem _]

/-- Settles O3: a matched row decides what the decoder reads; where no row matches nothing is decoded, since a decoded word is
the word of its instruction and would match that instruction's row (R94, R95, R96). -/
theorem decodeFollowsTheOpcodeMap : Obligations.DecodeFollowsTheOpcodeMap := by
  intro w
  cases hrow : opcodeTable.find? (fun r => r.accepts w) with
  | some r =>
    have haccepts : r.accepts w = true := by simpa using List.find?_some hrow
    obtain ⟨i, hi, hmnemonic, hoperands⟩ := readsAs_of_accepts (List.mem_of_find?_eq_some hrow) haccepts
    simp [hi, hmnemonic, hoperands]
  | none =>
    cases hd : decode w with
    | none => rfl
    | some i =>
      obtain ⟨r, hr, haccepts⟩ := exists_row_accepts_encode i
      rw [encodeInvertsDecode w i hd] at haccepts
      exact absurd haccepts (List.find?_eq_none.mp hrow r hr)

/-- Settles O5: the eleven words are closed, and the decoder evaluates on each (30_encoding.md R94). -/
theorem specWordsDecode : Obligations.SpecWordsDecode := by
  unfold Obligations.SpecWordsDecode
  decide

end Sys2Proof
end

section
/-! SUPPORT. Facts about STEP for the statements below: it always answers, what it sees of the surrounding system, and the
frames of the moves that STEP makes (40_execute_cycle.md R120 to R128). -/

namespace Sys2Proof.Machine

theorem exec_toSurroundings {i : Instr} {s t : State} (h : exec i s = .next t) : t.toSurroundings = s.toSurroundings := by
  obtain ⟨henv, hsampled⟩ := exec_env h
  obtain ⟨b, env, sampled⟩ := s
  obtain ⟨b', env', sampled'⟩ := t
  cases henv
  cases hsampled
  rfl

/-- Every STEP answers a next state, and it leaves the surrounding system to the bookkeeping after it. -/
theorem executeCycle_next (s : State) : ∃ t, executeCycle s = .next t ∧ t.toSurroundings = s.toSurroundings := by
  obtain ⟨-, h⟩ | ⟨-, -, h⟩ | ⟨-, -, -, h⟩ | ⟨-, -, i, -, h⟩ := executeCycle_cases s
  · exact ⟨s, h, rfl⟩
  · exact ⟨_, h, rfl⟩
  · exact ⟨_, h, rfl⟩
  · obtain ⟨t, ht, -⟩ := exec_next_effect i s.advance
    exact ⟨t, h.trans ht, (exec_toSurroundings ht).trans s.advance_toSurroundings⟩

/-- With a STEP next, whether pending or not, `step` performs the cycle and uses up its inputs. -/
theorem step_of_stepIsNext {s t : State} (hs : s.stepIsNext = true) (h : executeCycle s = .next t) :
    step s = .next t.dropInputs := by
  rw [← performStep_next h]
  apply step_of_step
  cases henv : s.env with
  | nil => exact .inl rfl
  | cons op rest =>
    cases op with
    | step keys rand => exact .inr ⟨keys, rand, rest, rfl⟩
    | _ => simp [State.stepIsNext, henv, Operation.isStep] at hs

/-- What a STEP leaves of the block depends on the block and on the inputs that the fetched instruction asks for (R128). -/
theorem executeCycle_congr {s s' t : State} (hb : s'.toBlock = s.toBlock)
    (hk : (∃ x, decode s.fetchWord = some (.skp x) ∨ decode s.fetchWord = some (.sknp x)) → s'.keysHeld = s.keysHeld)
    (hr : (∃ x kk, decode s.fetchWord = some (.rnd x kk)) → s'.rand = s.rand) (h : executeCycle s = .next t) :
    executeCycle s' = .next { t with toSurroundings := s'.toSurroundings } := by
  obtain ⟨b, e⟩ := s
  obtain ⟨b', e'⟩ := s'
  cases hb
  obtain ⟨hhalt, hs⟩ | ⟨hhalt, hpc, hs⟩ | ⟨hhalt, hpc, hd, hs⟩ | ⟨hhalt, hpc, i, hd, hs⟩ := executeCycle_cases ⟨b, e⟩
  · cases hs.symm.trans h
    exact executeCycle_halted hhalt
  · cases hs.symm.trans h
    exact executeCycle_outOfBounds hhalt hpc
  · cases hs.symm.trans h
    exact executeCycle_undecodable hhalt hpc hd
  · rw [executeCycle_decoded (s := ⟨b, e'⟩) hhalt hpc hd]
    refine exec_congr (s := State.advance ⟨b, e⟩) rfl ?_ ?_ (hs.symm.trans h)
    · rintro ⟨x, rfl | rfl⟩
      · exact hk ⟨x, .inl hd⟩
      · exact hk ⟨x, .inr hd⟩
    · rintro ⟨x, kk, rfl⟩
      exact hr ⟨x, kk, hd⟩

/-- Using up the inputs of a STEP leaves the whole block alone (log 1, log 2). -/
theorem State.changesOnly_dropInputs (s : State) : s.ChangesOnly s.dropInputs [.env, .sampled] := by
  intro p hp
  cases p with
  | env | sampled => simp at hp
  | _ => simp [State.Keeps, State.reg]

/-- Advancing PC changes PC only (R124). -/
theorem State.changesOnly_advance (s : State) : s.ChangesOnly s.advance [.pc] := s.changesOnly_setPc _

/-- The state a fault leaves has the fault in its record (60_exceptions.md R241). -/
theorem State.records_raise (s : State) (kind : FaultKind) (addr word : Word) :
    (s.raise kind addr word).dropInputs.Records kind addr word := ⟨rfl, rfl, rfl, rfl⟩

end Sys2Proof.Machine
end

section
/-! SUPPORT. The execute cycle (40_execute_cycle.md R120 to R128). -/

namespace Sys2Proof.Machine

/-- Settles O16: a STEP answers whatever it fetches, and the four other operations answer by their one equation each. -/
theorem everyStepAnswersANextState : Obligations.EveryStepAnswersANextState := by
  intro s
  obtain ⟨t, hcycle, -⟩ := executeCycle_next s
  cases henv : s.env with
  | nil => exact ⟨_, step_of_stepIsNext (by simp [State.stepIsNext, henv]) hcycle⟩
  | cons op rest =>
    cases op with
    | step keys rand => exact ⟨_, step_of_stepIsNext (by simp [State.stepIsNext, henv, Operation.isStep]) hcycle⟩
    | tick => exact ⟨_, step_of_tick henv⟩
    | keyEvent k => exact ⟨_, step_of_keyEvent henv⟩
    | load base bytes => exact ⟨_, step_of_load henv⟩
    | reset => exact ⟨_, step_of_reset henv⟩

/-- Settles O6: the two bytes at PC are the fetched word, so the cycle is the decoded instruction's meaning on the advanced
state, and no meaning touches the surrounding system (R124 to R127). -/
theorem stepRunsTheDecodedInstruction : Obligations.StepRunsTheDecodedInstruction := by
  intro s i ⟨hnext, hrun, hpc⟩ hbytes
  have hd : decode s.fetchWord = some i := (decodeBytes_pair _ _ [] i).mp hbytes
  obtain ⟨t, hexec, -⟩ := exec_next_effect i s.advance
  obtain ⟨henv, hsampled⟩ := exec_env hexec
  have hcycle : executeCycle s = .next t := (executeCycle_decoded hrun hpc hd).trans hexec
  exact ⟨rfl, s.changesOnly_advance, t, hexec, step_of_stepIsNext hnext hcycle, congrArg List.tail henv,
    congrArg (· + 1) hsampled, t.changesOnly_dropInputs⟩

/-- Settles O7: the word is its two bytes by definition, and the bytes just stored are the ones read back there (R123;
20_memory.md R64, R72). -/
theorem fetchIsBigEndianAndCurrent : Obligations.FetchIsBigEndianAndCurrent := by
  intro s hpc
  refine ⟨BitVec.extractLsb'_append_eq_left, BitVec.extractLsb'_append_eq_right, fun hwf hi lo => ?_⟩
  have hfits : s.pc.toNat + [hi, lo].length ≤ Config.memSize := by
    simp only [List.length_cons, List.length_nil, Config.memSize]
    omega
  have hhi : (s.mem.writeBlock s.pc.toNat [hi, lo]).read s.pc.toNat = hi :=
    Memory.read_writeBlock hwf hfits (k := 0) (by simp)
  have hlo : (s.mem.writeBlock s.pc.toNat [hi, lo]).read (s.pc.toNat + 1) = lo :=
    Memory.read_writeBlock hwf hfits (k := 1) (by simp)
  simp [State.fetchWord, hhi, hlo, wordOfBytes]

/-- Settles O8: the fault is raised on the advanced state, so PC is past the word and the record holds the address before it
(R125, R242). -/
theorem undecodableWordFaults : Obligations.UndecodableWordFaults := by
  intro s ⟨hnext, hrun, hpc⟩ hd
  have hstep := step_of_stepIsNext hnext (executeCycle_undecodable hrun hpc hd)
  have hframe := (s.changesOnly_advance.trans (s.advance.changesOnly_raise .decodeFault s.pc s.fetchWord)).trans
    (State.changesOnly_dropInputs _)
  exact ⟨_, hstep, State.records_raise .., rfl, rfl, hframe.mono (by simp)⟩

/-- Settles O9: the bounds check comes before the advance, so PC is kept (R122, R245). -/
theorem pcOutOfRangeFaults : Obligations.PcOutOfRangeFaults := by
  intro s hnext hrun hpc
  have hstep := step_of_stepIsNext hnext (executeCycle_outOfBounds hrun hpc)
  have hframe := (s.changesOnly_raise .pcOutOfBounds s.pc 0).trans (State.changesOnly_dropInputs _)
  exact ⟨_, hstep, State.records_raise .., rfl, hframe.mono (by simp)⟩

/-- Settles O10: the cycle answers the state itself, whose status is the recorded fault (R121). -/
theorem haltedStepChangesNothing : Obligations.HaltedStepChangesNothing := by
  intro s hnext hhalt
  exact ⟨_, step_of_stepIsNext hnext (executeCycle_halted hhalt), by simp [State.status, hhalt], s.changesOnly_dropInputs⟩

/-- STEPs with different inputs pending on one block are the same step when the fetched instruction asks for neither input that
differs. -/
theorem step_inputs_congr (s : State) {keys keys' : BitVec 16} {rand rand' : Byte} (rest : List Operation)
    (hk : (∃ x, decode s.fetchWord = some (.skp x) ∨ decode s.fetchWord = some (.sknp x)) → keys' = keys)
    (hr : (∃ x kk, decode s.fetchWord = some (.rnd x kk)) → rand' = rand) :
    step { s with env := .step keys rand :: rest } = step { s with env := .step keys' rand' :: rest } := by
  obtain ⟨t, ht, hsame⟩ := executeCycle_next { s with env := .step keys rand :: rest }
  have ht' := executeCycle_congr (s := { s with env := .step keys rand :: rest })
    (s' := { s with env := .step keys' rand' :: rest }) rfl hk hr ht
  rw [step_of_stepIsNext rfl ht, step_of_stepIsNext rfl ht']
  have henv := congrArg Surroundings.env hsame
  have hsampled := congrArg Surroundings.sampled hsame
  simp [State.dropInputs, State.dropOperation, henv, hsampled]

/-- Settles O12: where the fetched word is not the one of the input's instructions, no instruction asks for that input, and the
other input is the same (R128). -/
theorem inputsReachOnlyThreeInstructions : Obligations.InputsReachOnlyThreeInstructions := by
  intro s keys keys' rand rand' rest
  constructor
  · intro hskp hsknp
    refine step_inputs_congr s rest ?_ fun _ => rfl
    rintro ⟨x, h | h⟩
    · exact absurd h (hskp x)
    · exact absurd h (hsknp x)
  · intro hrnd
    refine step_inputs_congr s rest (fun _ => rfl) ?_
    rintro ⟨x, kk, h⟩
    exact absurd h (hrnd x kk)

/-- Settles O56: a STEP pending in both states gives both the same inputs; the four other operations are functions of the block
alone (10_state.md R20, R34). -/
theorem operationsSeeOnlyTheBlock : Obligations.OperationsSeeOnlyTheBlock := by
  intro s s' op rest rest' hblock henv henv'
  obtain ⟨b, env, sampled⟩ := s
  obtain ⟨b', env', sampled'⟩ := s'
  cases hblock
  cases henv
  cases henv'
  cases op with
  | step keys rand =>
    obtain ⟨t, ht, hsame⟩ := executeCycle_next ⟨b, .step keys rand :: rest, sampled⟩
    have ht' := executeCycle_congr (s := ⟨b, .step keys rand :: rest, sampled⟩)
      (s' := ⟨b, .step keys rand :: rest', sampled'⟩) rfl (fun _ => rfl) (fun _ => rfl) ht
    have hrest : t.env.tail = rest := congrArg (·.env.tail) hsame
    exact ⟨_, _, step_of_stepIsNext rfl ht, step_of_stepIsNext rfl ht', rfl, hrest, rfl⟩
  | tick => exact ⟨_, _, step_of_tick rfl, step_of_tick rfl, rfl, rfl, rfl⟩
  | keyEvent k => exact ⟨_, _, step_of_keyEvent rfl, step_of_keyEvent rfl, rfl, rfl, rfl⟩
  | reset => exact ⟨_, _, step_of_reset rfl, step_of_reset rfl, rfl, rfl, rfl⟩
  | load base bytes =>
    refine ⟨_, _, step_of_load rfl, step_of_load rfl, ?_, by simp, by simp⟩
    cases hfits : loadFits base bytes.length with
    | true => simp [State.load, hfits, State.store]
    | false => simp [State.load, hfits]

end Sys2Proof.Machine
end

section
/-! SUPPORT. The invariant of the machine (10_state.md R27, R33; 60_exceptions.md R241 to R246). -/

namespace Sys2Proof.Machine

theorem pc_add_two_toNat {pc : Word} (h : pc.toNat ≤ 4096) : (pc + 2).toNat = pc.toNat + 2 :=
  BitVec.toNat_add_of_lt (y := 2) (Nat.lt_of_le_of_lt (Nat.add_le_add_right h 2) (by decide))

theorem pc_sub_two_toNat {pc : Word} (h : 2 ≤ pc.toNat) : (pc - 2).toNat = pc.toNat - 2 :=
  BitVec.toNat_sub_of_le (y := 2) h

/-- A running block whose fault record is empty has a record that fits. -/
theorem State.RecordFits.of_running {s : State} (hhalt : s.halt = false) (hkind : s.faultKind = .noFault)
    (hword : s.faultWord = 0) (haddr : s.faultAddr = 0) : s.RecordFits where
  halted := by simp [hhalt, hkind]
  empty _ := ⟨hword, haddr⟩
  decodeFault h := by simp [hkind] at h
  stackOverflow h := by simp [hkind] at h
  stackUnderflow h := by simp [hkind] at h
  pcOutOfBounds h := by simp [hkind] at h
  afterFetch h := absurd hkind h

/-- The fault record of a running block that meets the invariant is empty. -/
theorem State.RecordFits.kind_of_running {s : State} (h : s.RecordFits) (hhalt : s.halt = false) : s.faultKind = .noFault := by
  by_contra hkind
  simp [h.halted.mpr hkind] at hhalt

/-- The invariant speaks of memory, the fault record, the call stack and PC only. -/
theorem State.Inv.congr {s t : State} (hs : s.Inv) (hmem : t.mem.wf) (hrecord : s.Keeps t .faultRecord)
    (hstack : t.stack = s.stack) (hsp : t.sp = s.sp) (hpc : t.pc = s.pc) : t.Inv := by
  obtain ⟨-, hfits, hreturns, hbound⟩ := hs
  obtain ⟨hhalt, hkind, hword, haddr⟩ := hrecord
  refine ⟨hmem, ?_, by rwa [hstack], by rwa [hpc]⟩
  constructor <;> rw [hkind] <;> simp only [hhalt, hword, haddr, hsp, hpc]
  exacts [hfits.halted, hfits.empty, hfits.decodeFault, hfits.stackOverflow, hfits.stackUnderflow, hfits.pcOutOfBounds,
    hfits.afterFetch]

/-- What an instruction starts from: a running block that meets the invariant, PC advanced past the word fetched (R124). -/
structure State.Ready (s : State) : Prop where
  memory : s.mem.wf
  running : s.halt = false
  noFault : s.faultKind = .noFault
  noWord : s.faultWord = 0
  noAddr : s.faultAddr = 0
  returns : ∀ k : Fin 16, (s.stack.get k).toNat ≤ 4096
  past : 2 ≤ s.pc.toNat
  pcBound : s.pc.toNat ≤ 4096

theorem State.Inv.ready_advance {s : State} (hs : s.Inv) (hrun : s.halt = false) (hpc : s.pc.toNat ≤ 4094) :
    s.advance.Ready := by
  obtain ⟨hmem, hfits, hreturns, -⟩ := hs
  have hkind := hfits.kind_of_running hrun
  obtain ⟨hword, haddr⟩ := hfits.empty hkind
  have hadvanced : s.advance.pc.toNat = s.pc.toNat + 2 := pc_add_two_toNat (by omega)
  exact ⟨hmem, hrun, hkind, hword, haddr, hreturns, by omega, by omega⟩

/-- An instruction that raises no fault keeps the empty record; the invariant is then left to memory, the stack and PC. -/
theorem State.Ready.inv_of_keeps {s t : State} (hs : s.Ready) (hrecord : s.Keeps t .faultRecord) (hmem : t.mem.wf)
    (hreturns : ∀ k : Fin 16, (t.stack.get k).toNat ≤ 4096) (hpc : t.pc.toNat ≤ 0x10FE) : t.Inv := by
  obtain ⟨hhalt, hkind, hword, haddr⟩ := hrecord
  exact ⟨hmem, .of_running (hhalt.trans hs.running) (hkind.trans hs.noFault) (hword.trans hs.noWord) (haddr.trans hs.noAddr),
    hreturns, hpc⟩

/-- A fault that an instruction raises has a record that fits, when it fits what the fault is about. -/
theorem State.Ready.inv_raise {s : State} (hs : s.Ready) {kind : FaultKind} {word : Word} (hfault : kind ≠ .noFault)
    (hfetched : kind ≠ .pcOutOfBounds) (hdecode : kind = .decodeFault → decode word = none)
    (hfull : kind = .stackOverflow → s.sp = 16) (hempty : kind = .stackUnderflow → s.sp = 0 ∧ word = 0x00EE) :
    (s.raise kind (s.pc - 2) word).Inv where
  memory := hs.memory
  returns := hs.returns
  pcBound := le_trans hs.pcBound (by decide)
  record :=
    { halted := by simp [hfault]
      empty := fun h => absurd h hfault
      decodeFault := hdecode
      stackOverflow := hfull
      stackUnderflow := hempty
      pcOutOfBounds := fun h => absurd h hfetched
      afterFetch := fun _ _ => by
        have := hs.pcBound
        have haddr := pc_sub_two_toNat hs.past
        exact ⟨by rw [raise_faultAddr]; omega, (BitVec.sub_add_cancel s.pc 2).symm⟩ }

/-- Every instruction leaves a state that meets the invariant, whether it completes or faults (R126, R241). -/
theorem Effect.inv {s t : State} {i : Instr} (he : Effect s i t) (hs : s.Ready) : t.Inv := by
  have hpc := hs.pcBound
  have hmem := hs.memory
  have hreturns := hs.returns
  cases he with
  | skip _ c =>
    refine hs.inv_of_keeps (by simp [State.Keeps]) (by simpa using hmem) (by simpa using hreturns) ?_
    rw [State.skipIf_pc]
    split
    · rw [pc_add_two_toNat hpc]; omega
    · omega
  | jp nnn =>
    refine hs.inv_of_keeps (by simp [State.Keeps]) hmem hreturns ?_
    rw [State.setPc_pc, zextAddr_toNat]; omega
  | jpV0 nnn =>
    refine hs.inv_of_keeps (by simp [State.Keeps]) hmem hreturns ?_
    rw [State.setPc_pc, BitVec.toNat_add, zextAddr_toNat, zextByte_toNat]; omega
  | wait x =>
    refine hs.inv_of_keeps (by simp [State.Keeps]) hmem hreturns ?_
    rw [State.setPc_pc, pc_sub_two_toNat hs.past]; omega
  | ret h =>
    refine hs.inv_of_keeps (by simp [State.Keeps]) hmem hreturns ?_
    exact le_trans (hreturns ⟨s.sp.val - 1, by omega⟩) (by decide)
  | call nnn h =>
    refine hs.inv_of_keeps (by simp [State.Keeps]) hmem (fun k => ?_) ?_
    · simp only [State.setPc_stack, State.push_stack, Vector.get_eq_getElem, Vector.getElem_set]
      split
      · exact hpc
      · exact hreturns k
    · rw [State.setPc_pc, zextAddr_toNat]; omega
  | ldB x h => exact hs.inv_of_keeps (by simp [State.Keeps]) (State.store_wf hmem h) hreturns (by simp; omega)
  | ldMemVx x h =>
    exact hs.inv_of_keeps (by simp [State.Keeps]) (State.store_wf hmem (by simpa using h)) hreturns (by simp; omega)
  | plain | flagged | address | cls | drw | deliver | setDt | setSt | ldVxMem =>
    exact hs.inv_of_keeps (by simp [State.Keeps]) hmem hreturns (le_trans hpc (by decide))
  | callFull nnn h => exact hs.inv_raise (by simp) (by simp) (by simp) (fun _ => Fin.ext h) (by simp)
  | retEmpty h => exact hs.inv_raise (by simp) (by simp) (by simp) (by simp) (fun _ => ⟨Fin.ext h, rfl⟩)
  | drwAbove | ldBAbove | ldMemVxAbove | ldVxMemAbove =>
    exact hs.inv_raise (by simp) (by simp) (by simp) (by simp) (by simp)

/-- STEP keeps the invariant, in each of its four cases (R120). -/
theorem executeCycle_inv {s t : State} (hs : s.Inv) (h : executeCycle s = .next t) : t.Inv := by
  obtain ⟨-, he⟩ | ⟨hrun, hpc, he⟩ | ⟨hrun, hpc, hd, he⟩ | ⟨hrun, hpc, i, hd, he⟩ := executeCycle_cases s
  · cases he.symm.trans h
    exact hs
  · cases he.symm.trans h
    exact ⟨hs.memory, by constructor <;> simp [hpc], hs.returns, hs.pcBound⟩
  · cases he.symm.trans h
    have hfault := (hs.ready_advance hrun hpc).inv_raise (kind := .decodeFault) (word := s.fetchWord) (by simp) (by simp)
      (fun _ => hd) (by simp) (by simp)
    rwa [State.advance_pc, BitVec.add_sub_cancel] at hfault
  · exact (exec_effect (he.symm.trans h)).inv (hs.ready_advance hrun hpc)

/-- Settles O18: the block after RESET runs, with an empty record, an empty stack and PC at the entry point. -/
theorem resetMeetsTheInvariant : Obligations.ResetMeetsTheInvariant where
  memory := Memory.reset_wf
  record := .of_running rfl rfl rfl rfl
  returns := by simp
  pcBound := by simp

/-- Settles O17: STEP by its four cases, an executed instruction by what it can leave; TICK, KEY_EVENT and LOAD keep all the
invariant speaks of but memory, which LOAD keeps canonical; RESET leaves the reset block. -/
theorem stepKeepsTheInvariant : Obligations.StepKeepsTheInvariant := by
  intro s t hs hstep
  have of_cycle (hnext : s.stepIsNext = true) : t.Inv := by
    obtain ⟨u, hu, -⟩ := executeCycle_next s
    cases (step_of_stepIsNext hnext hu).symm.trans hstep
    have hinv := executeCycle_inv hs hu
    exact hinv.congr hinv.memory (by simp [State.Keeps]) rfl rfl rfl
  cases henv : s.env with
  | nil => exact of_cycle (by simp [State.stepIsNext, henv])
  | cons op rest =>
    cases op with
    | step keys rand => exact of_cycle (by simp [State.stepIsNext, henv, Operation.isStep])
    | tick =>
      cases (step_of_tick henv).symm.trans hstep
      exact hs.congr hs.memory (by simp [State.Keeps]) rfl rfl rfl
    | keyEvent k =>
      cases (step_of_keyEvent henv).symm.trans hstep
      exact hs.congr hs.memory (by simp [State.Keeps]) rfl rfl rfl
    | load base bytes =>
      cases (step_of_load henv).symm.trans hstep
      exact hs.congr (State.load_wf hs.memory base bytes) (by simp [State.Keeps]) (by simp) (by simp) (by simp)
    | reset =>
      cases (step_of_reset henv).symm.trans hstep
      have hinv := resetMeetsTheInvariant
      exact hinv.congr hinv.memory (by simp [State.Keeps]) rfl rfl rfl

end Sys2Proof.Machine
end

section
/-! SUPPORT. What every instruction can do: which faults, which writes, which flags (40_execute_cycle.md R126, R128; 10_state.md
R25; 60_exceptions.md R241 to R247). -/

namespace Sys2Proof.Machine

/-- A state changes nothing from itself. -/
theorem State.changesOnly_refl (s : State) (ps : List Part) : s.ChangesOnly s ps := by
  intro p _
  cases p with
  | faultRecord => exact ⟨rfl, rfl, rfl, rfl⟩
  | _ => rfl

/-- An instruction that halts a running block has raised a fault with its own address and word (R241). -/
theorem Effect.raise_of_halted {s t : State} {i : Instr} (he : Effect s i t) (hs : s.halt = false) (ht : t.halt = true) :
    ∃ kind, kind ≠ .noFault ∧ t = s.raise kind (s.pc - 2) (encode i) := by
  cases he with
  | callFull | retEmpty | drwAbove | ldBAbove | ldMemVxAbove | ldVxMemAbove => exact ⟨_, by simp, rfl⟩
  | _ => simp [hs] at ht

/-- Settles O11: the four cases of STEP; an instruction that ends halted has done nothing but raise a fault, and its word is the
word fetched, since encoding inverts decoding (R241). -/
theorem faultsArePrecise : Obligations.FaultsArePrecise := by
  intro s t hnext hrun hstep hhalt
  obtain ⟨u, hu, -⟩ := executeCycle_next s
  cases (step_of_stepIsNext hnext hu).symm.trans hstep
  have frame {kind : FaultKind} {addr word : Word} {v : State} (hv : s.ChangesOnly v [.pc]) :
      s.ChangesOnly (v.raise kind addr word).dropInputs [.pc, .faultRecord, .env, .sampled] :=
    ((hv.trans (v.changesOnly_raise kind addr word)).trans (State.changesOnly_dropInputs _)).mono (by simp)
  obtain ⟨hh, -⟩ | ⟨-, hpc, he⟩ | ⟨-, hpc, hd, he⟩ | ⟨-, hpc, i, hd, he⟩ := executeCycle_cases s
  · simp [hh] at hrun
  · cases he.symm.trans hu
    exact ⟨frame (s.changesOnly_refl _), by simp, rfl, fun _ => ⟨rfl, rfl⟩, fun h => absurd h (by omega)⟩
  · cases he.symm.trans hu
    exact ⟨frame s.changesOnly_advance, by simp, rfl, fun h => absurd h (by omega), fun _ => ⟨rfl, rfl⟩⟩
  · obtain ⟨kind, hkind, rfl⟩ := (exec_effect (he.symm.trans hu)).raise_of_halted hrun hhalt
    have haddr : s.advance.pc - 2 = s.pc := BitVec.add_sub_cancel ..
    exact ⟨frame s.changesOnly_advance, hkind, haddr, fun h => absurd h (by omega),
      fun _ => ⟨rfl, encodeInvertsDecode _ _ hd⟩⟩

/-- Settles O13: ten effects write one of the seven, each under a mnemonic of its list; the others write none (R128). -/
theorem eachStateHasItsWriters : Obligations.EachStateHasItsWriters := by
  intro i s t h
  cases exec_effect h with
  | cls | drw | call | ret | deliver | setDt | setSt | ldB | ldMemVx => simp [Instr.mnemonic]
  | address _ _ hm => simp [hm]
  | _ => simp

theorem flagByte_eq (c : Bool) : flagByte c = 0x00 ∨ flagByte c = 0x01 := by cases c <;> simp [flagByte]

/-- The skips, the plain writes and the writes of I are no flag writers. -/
theorem not_mem_flagWriters {m : String} (h : m ∈ skipMnemonics ++ plainMnemonics ++ ["LD_I", "ADD_I", "LD_F"]) :
    m ∉ flagWriters := by
  have apart : ∀ m ∈ skipMnemonics ++ plainMnemonics ++ ["LD_I", "ADD_I", "LD_F"], m ∉ flagWriters := by decide
  exact apart m h

/-- A flag writer that completes leaves a flag in VF (10_state.md R25). -/
theorem Effect.flag_of_flagWriter {s t : State} {i : Instr} (he : Effect s i t) (hw : i.mnemonic ∈ flagWriters)
    (ht : t.halt = false) : ∃ c, t.reg regF = flagByte c := by
  cases he with
  | flagged x b c _ _ => exact ⟨_, by rw [State.reg_writeResultThenFlag, if_pos rfl]⟩
  | drw x y n fb c h => exact ⟨c, State.reg_setReg_same ..⟩
  | drwAbove => simp at ht
  | skip _ _ hm => exact absurd hw (not_mem_flagWriters (by simp [hm]))
  | plain _ _ _ hm => exact absurd hw (not_mem_flagWriters (by simp [hm]))
  | address _ _ hm => exact absurd hw (not_mem_flagWriters (List.mem_append_right _ hm))
  | _ => simp [Instr.mnemonic, flagWriters] at hw

/-- An instruction that is no flag writer leaves VF alone unless it names it as destination (10_state.md R25). -/
theorem Effect.regF_kept {s t : State} {i : Instr} (he : Effect s i t) (hw : i.mnemonic ∉ flagWriters)
    (hd : destination i ≠ some regF) : t.reg regF = s.reg regF := by
  have ne_of_destination {x : RegNum} (hx : destination i = some x) : regF ≠ x := fun h => hd (h ▸ hx)
  cases he with
  | flagged _ _ _ _ hm => exact absurd (List.mem_append_left ["DRW"] hm) hw
  | drw | drwAbove => simp [Instr.mnemonic, flagWriters] at hw
  | plain _ x b _ hx => exact s.reg_setReg_ne b (ne_of_destination hx)
  | deliver x k => exact State.reg_setReg_ne _ _ (ne_of_destination rfl)
  | ldVxMem x h =>
    have hx : x.toNat ≠ 15 := fun e => ne_of_destination rfl (BitVec.eq_of_toNat_eq e.symm)
    have hlt := x.isLt
    rw [State.reg_setRegsFrom0, if_neg]
    simp [regF]
    omega
  | _ => exact State.reg_congr (by simp) _

/-- Settles O14: what the flag writers leave is a flag byte, and every other effect writes VF only as its destination (R25). -/
theorem flagIsZeroOrOne : Obligations.FlagIsZeroOrOne := by
  intro i s t h
  refine ⟨fun hw _ ht => ?_, (exec_effect h).regF_kept⟩
  obtain ⟨c, hc⟩ := (exec_effect h).flag_of_flagWriter hw ht
  exact hc.symm ▸ flagByte_eq c

/-- The faulting conditions of the spec (R243, R244, R246). -/
def Faulting (i : Instr) (s : State) : Prop :=
  (∃ nnn, i = .call nnn) ∧ s.sp.val = 16 ∨ i = .ret ∧ s.sp.val = 0 ∨
  (∃ x y n, i = .drw x y n ∧ 1 ≤ n.toNat ∧ s.i.toNat + n.toNat - 1 > 4095) ∨
  (∃ x, i = .ldB x) ∧ s.i.toNat + 2 > 4095 ∨
  (∃ x, (i = .ldMemVx x ∨ i = .ldVxMem x) ∧ s.i.toNat + x.toNat > 4095)

/-- The mnemonics of the six instructions that can fault. -/
def faultingMnemonics : List String := ["CALL", "RET", "DRW", "LD_B", "LD_MEM_VX", "LD_VX_MEM"]

theorem Faulting.mnemonic_mem {i : Instr} {s : State} (h : Faulting i s) : i.mnemonic ∈ faultingMnemonics := by
  obtain ⟨⟨nnn, rfl⟩, -⟩ | ⟨rfl, -⟩ | ⟨x, y, n, rfl, -⟩ | ⟨⟨x, rfl⟩, -⟩ | ⟨x, rfl | rfl, -⟩ := h
  all_goals simp [Instr.mnemonic, faultingMnemonics]

theorem not_faulting {i : Instr} {s : State}
    (h : i.mnemonic ∈ skipMnemonics ++ plainMnemonics ++ aluFlagMnemonics ++ ["LD_I", "ADD_I", "LD_F"]) : ¬ Faulting i s := by
  have apart : ∀ m ∈ skipMnemonics ++ plainMnemonics ++ aluFlagMnemonics ++ ["LD_I", "ADD_I", "LD_F"],
      m ∉ faultingMnemonics := by decide
  exact fun hf => apart _ h hf.mnemonic_mem

/-- From a running block an instruction ends halted exactly under its faulting condition (R126, R241). -/
theorem Effect.halt_iff {s t : State} {i : Instr} (he : Effect s i t) (hrun : s.halt = false) :
    t.halt = true ↔ Faulting i s := by
  cases he with
  | callFull nnn hsp => exact iff_of_true rfl (.inl ⟨⟨nnn, rfl⟩, hsp⟩)
  | retEmpty hsp => exact iff_of_true rfl (.inr (.inl ⟨rfl, hsp⟩))
  | drwAbove x y n hr =>
    obtain ⟨hn, hlast⟩ := State.accessOutOfRange_eq_true.mp hr
    exact iff_of_true rfl (.inr (.inr (.inl ⟨x, y, n, rfl, hn, by omega⟩)))
  | ldBAbove x hr =>
    obtain ⟨-, hlast⟩ := State.accessOutOfRange_eq_true.mp hr
    exact iff_of_true rfl (.inr (.inr (.inr (.inl ⟨⟨x, rfl⟩, by omega⟩))))
  | ldMemVxAbove x hr =>
    obtain ⟨-, hlast⟩ := State.accessOutOfRange_eq_true.mp hr
    exact iff_of_true rfl (.inr (.inr (.inr (.inr ⟨x, .inl rfl, by omega⟩))))
  | ldVxMemAbove x hr =>
    obtain ⟨-, hlast⟩ := State.accessOutOfRange_eq_true.mp hr
    exact iff_of_true rfl (.inr (.inr (.inr (.inr ⟨x, .inr rfl, by omega⟩))))
  | drw _ _ _ _ _ hr | ldB _ hr | ldMemVx _ hr | ldVxMem _ hr =>
    have hlast := State.accessOutOfRange_eq_false.mp hr
    simp [hrun, Faulting]
    omega
  | call | ret =>
    simp [hrun, Faulting]
    omega
  | skip _ _ hm | plain _ _ _ hm | flagged _ _ _ _ hm | address _ _ hm =>
    exact iff_of_false (by simp [hrun]) (not_faulting (by simp only [List.mem_append, hm, true_or, or_true]))
  | _ => simp [hrun, Faulting]

/-- Settles O15: six instructions can fault, each under its own condition, and the rest leave HALT as it is (R126, R247). -/
theorem onlyTheSpecsConditionsHalt : Obligations.OnlyTheSpecsConditionsHalt := fun _ _ _ hrun h =>
  (exec_effect h).halt_iff hrun

end Sys2Proof.Machine
end

section
/-! SUPPORT. Canonical memory (20_memory.md R62; log 9). -/

namespace Sys2Proof.Machine

/-- The first cell of a canonical memory is the only one of its address. -/
theorem Memory.read_tail_head {a : Nat} {b : Byte} {m : Memory} (h : Memory.wf ((a, b) :: m)) :
    m.read a = Memory.initial a := Memory.read_eq_initial (Memory.wf_above h)

theorem Memory.read_cons_ne {a c : Nat} (b : Byte) (m : Memory) (h : c ≠ a) : Memory.read ((a, b) :: m) c = m.read c := by
  rw [Memory.read, if_neg h]

theorem Memory.read_cons_same (a : Nat) (b : Byte) (m : Memory) : Memory.read ((a, b) :: m) a = b := by
  rw [Memory.read, if_pos rfl]

/-- A canonical memory with a cell at `a` reads otherwise there than one whose cells are all above `a`. -/
theorem Memory.read_ne_of_above {a : Nat} {b : Byte} {m m' : Memory} (h : Memory.wf ((a, b) :: m))
    (above : ∀ c ∈ m', a < c.1) : Memory.read ((a, b) :: m) a ≠ m'.read a := by
  rw [Memory.read_cons_same, Memory.read_eq_initial above]
  exact (h.2 (a, b) List.mem_cons_self).2

/-- Settles O19: by induction on the cells. The lower of two first addresses would read as its content after RESET in the other
memory and as something else in its own; so the first cells agree, and the tails read alike too. -/
theorem canonicalMemoryIsItsContents : Obligations.CanonicalMemoryIsItsContents := by
  intro m
  induction m with
  | nil =>
    intro m' _ hm' hread
    cases m' with
    | nil => rfl
    | cons c m' => exact absurd (hread c.1 (hm'.2 c List.mem_cons_self).1).symm (Memory.read_ne_of_above hm' (by simp))
  | cons c m ih =>
    intro m' hm hm' hread
    obtain ⟨a, b⟩ := c
    have ha : a < 4096 := (hm.2 (a, b) List.mem_cons_self).1
    cases m' with
    | nil => exact absurd (hread a ha) (Memory.read_ne_of_above hm (by simp))
    | cons c' m' =>
      obtain ⟨a', b'⟩ := c'
      have ha' : a' < 4096 := (hm'.2 (a', b') List.mem_cons_self).1
      obtain hlt | rfl | hlt := lt_trichotomy a a'
      · refine absurd (hread a ha) (Memory.read_ne_of_above hm fun c hc => ?_)
        rcases List.mem_cons.mp hc with rfl | hc
        · exact hlt
        · exact lt_trans hlt (Memory.wf_above hm' c hc)
      · have hb : b = b' := by simpa [Memory.read_cons_same] using hread a ha
        have htail : m = m' := by
          refine ih m' (Memory.wf_tail hm) (Memory.wf_tail hm') fun c hc => ?_
          by_cases hca : c = a
          · rw [hca, Memory.read_tail_head hm, Memory.read_tail_head hm']
          · simpa [Memory.read_cons_ne _ _ hca] using hread c hc
        rw [hb, htail]
      · refine absurd (hread a' ha').symm (Memory.read_ne_of_above hm' fun c hc => ?_)
        rcases List.mem_cons.mp hc with rfl | hc
        · exact hlt
        · exact lt_trans hlt (Memory.wf_above hm c hc)

end Sys2Proof.Machine
end

section
/-! SUPPORT. RESET, TICK, LOAD and the entry point (60_exceptions.md R255, R258; 70_reset_and_hazards.md R280, R281). -/

namespace Sys2Proof.Machine

/-- Settles O20: RESET replaces the whole block by the reset block, in which an unlisted address reads as the font below its 80
bytes and as zero from there on (10_state.md R37). -/
theorem resetLeavesTheResetState : Obligations.ResetLeavesTheResetState := by
  intro s rest hpending
  have hmem (a : Nat) : Memory.initial a = if a < 80 then font.getD a 0 else 0 := by
    split
    · rfl
    · exact List.getD_eq_default _ _ (Nat.le_of_not_lt ‹_›)
  refine ⟨_, step_of_reset hpending, hmem, ?_, rfl, rfl, ?_, rfl, rfl, rfl, ?_, rfl, rfl, rfl, rfl, rfl, by simp [hpending]⟩
  · simp [State.reg]
  · simp
  · simp

theorem tickTimer_toNat (t : Byte) : (tickTimer t).toNat = t.toNat - 1 := by
  unfold tickTimer
  split
  · simp [*]
  · rename_i h
    have : 1 ≤ t.toNat := Nat.one_le_iff_ne_zero.mpr fun e => h (BitVec.eq_of_toNat_eq e)
    exact BitVec.toNat_sub_of_le (y := 1) this

/-- Settles O22: the operation is one write of each timer, after which it is no longer pending (R255). -/
theorem tickCountsTimersDown : Obligations.TickCountsTimersDown := by
  intro s rest hpending
  have hframe : s.ChangesOnly s.tick.dropOperation [.env, .st, .dt] :=
    ((s.changesOnly_setDt _).trans (State.changesOnly_setSt _ _)).trans s.tick.changesOnly_dropOperation
  exact ⟨_, step_of_tick hpending, tickTimer_toNat s.dt, tickTimer_toNat s.st, by simp [hpending], hframe.mono (by simp)⟩

theorem State.load_of_fits {s : State} {base : Nat} {bytes : List Byte} (h : base + bytes.length ≤ 4096) :
    s.load base bytes = s.store base bytes := by
  simp [State.load, loadFits, Config.memSize, h]

theorem loadFits_eq_false {base len : Nat} (h : base + len > 4096) : loadFits base len = false :=
  decide_eq_false (Nat.not_le.mpr h)

/-- Settles O24: a LOAD that fits is one store, which reads back byte for byte in canonical memory and whose frame is the bytes
stored (R258). -/
theorem loadWritesItsBytes : Obligations.LoadWritesItsBytes := by
  intro s base bytes rest hwf hpending hfits
  have hstep := step_of_load hpending
  rw [State.load_of_fits hfits] at hstep
  have hread (k : Nat) (hk : k < bytes.length) : (s.mem.writeBlock base bytes).read (base + k) = bytes.getD k 0 :=
    (Memory.read_writeBlock hwf hfits hk).trans (List.getD_eq_getElem _ _ hk).symm
  exact ⟨_, hstep, hread, by simp [hpending],
    (s.changesOnly_store base bytes).trans (State.changesOnly_dropOperation _)⟩

/-- Settles O25: a LOAD that does not fit leaves the block as it is (R258). -/
theorem overrunningLoadWritesNothing : Obligations.OverrunningLoadWritesNothing := by
  intro s base bytes rest hpending hover
  have hfits := loadFits_eq_false hover
  have hload : s.load base bytes = s := by simp [State.load, hfits]
  have hstep := step_of_load hpending
  rw [hload] at hstep
  exact ⟨hfits, _, hstep, by simp [hpending], s.changesOnly_dropOperation⟩

/-- An operation other than STEP leaves a running block that stands at the entry point so (R249, R255, R258, R259, R280). -/
theorem step_of_not_isStep {s : State} {op : Operation} {rest : List Operation} (hpending : s.env = op :: rest)
    (hop : op.isStep = false) : ∃ t, step s = .next t ∧ t.env = rest ∧
      (s.pc = 0x0200 → t.pc = 0x0200) ∧ (s.halt = false → t.halt = false) := by
  cases op with
  | step => simp [Operation.isStep] at hop
  | reset => exact ⟨_, step_of_reset hpending, by simp [hpending], fun _ => rfl, fun _ => rfl⟩
  | tick => exact ⟨_, step_of_tick hpending, by simp [hpending], id, id⟩
  | keyEvent k => exact ⟨_, step_of_keyEvent hpending, by simp [hpending], id, id⟩
  | load base bytes => exact ⟨_, step_of_load hpending, by simp [hpending], by simp, by simp⟩

/-- One more step of a run is the step and then the run. -/
theorem core_run_succ {s t : State} (h : step s = .next t) (k : Nat) : core.run (k + 1) s = core.run k t := by
  have hcore : core.step s = .next t := h
  simp only [Host.Core.run, hcore]

/-- A run through operations other than STEP stays at the entry point, running. -/
theorem run_not_isStep {ops rest : List Operation} {s : State} (hpending : s.env = ops ++ rest)
    (hops : ∀ op ∈ ops, op.isStep = false) (hpc : s.pc = 0x0200) (hrun : s.halt = false) :
    ∃ t : State, core.run ops.length s = .next t ∧ t.env = rest ∧ t.pc = 0x0200 ∧ t.halt = false := by
  induction ops generalizing s with
  | nil => exact ⟨s, rfl, hpending, hpc, hrun⟩
  | cons op ops ih =>
    obtain ⟨t, hstep, henv, htpc, hthalt⟩ := step_of_not_isStep hpending (hops op List.mem_cons_self)
    obtain ⟨u, hu, hrest⟩ := ih henv (fun op hop => hops op (List.mem_cons_of_mem _ hop)) (htpc hpc) (hthalt hrun)
    exact ⟨u, (core_run_succ hstep _).trans hu, hrest⟩

/-- Settles O21: RESET puts PC at the entry point with the block running, and no operation but STEP moves it from there; so the
first STEP is the cycle's decoded or undecodable case on the word at 0x200 (R281). -/
theorem entryPointIsFixed : Obligations.EntryPointIsFixed := by
  intro s ops rest hpending hops
  obtain ⟨t, hrun, henv, hpc, hhalt⟩ := run_not_isStep (s := s.resetBlock.dropOperation) (rest := rest)
    (by simp [hpending]) hops rfl rfl
  have hword : t.fetchWord = t.mem.read 0x200 ++ t.mem.read 0x201 := by simp [State.fetchWord, hpc, wordOfBytes]
  have hbound : t.pc.toNat ≤ 4094 := by simp [hpc]
  refine ⟨t, (core_run_succ (step_of_reset hpending) _).trans hrun, henv, hpc, fun hnext => ⟨fun i hd => ?_, fun hd => ?_⟩⟩
  · rw [← hword] at hd
    obtain ⟨u, hu, -⟩ := exec_next_effect i t.advance
    exact ⟨u, hu, step_of_stepIsNext hnext ((executeCycle_decoded hhalt hbound hd).trans hu)⟩
  · rw [← hword] at hd
    exact ⟨_, step_of_stepIsNext hnext (executeCycle_undecodable hhalt hbound hd), rfl⟩

end Sys2Proof.Machine
end

section
/-! SUPPORT. The immediate and random instructions (42_immediate_and_random.md). -/

namespace Sys2Proof.Machine

/-- Settles O26: the meaning is one write of Vx (R160). -/
theorem ldImmLoadsItsByte : Obligations.LdImmLoadsItsByte := by
  intro x kk s
  exact ⟨rfl, _, rfl, s.reg_setReg_same x kk, s.changesOnly_setReg x kk⟩

/-- Settles O28: the meaning is one write of I by the zero-extended address (R162). -/
theorem ldISetsTheAddress : Obligations.LdISetsTheAddress := by
  intro nnn s
  exact ⟨rfl, _, rfl, zextAddr_toNat nnn, s.changesOnly_setI _⟩

/-- Settles O29: the meaning is one write of Vx by the input under the mask, and the input is the pending STEP's or the free
value (R163; log 1). -/
theorem rndMasksTheRandomByte : Obligations.RndMasksTheRandomByte := by
  intro x kk s
  have hexec : exec (.rnd x kk) s = .next (s.setReg x (s.rand &&& kk)) := rfl
  refine ⟨rfl, _, hexec, s.changesOnly_setReg x _, fun keys rand rest henv => ?_, fun henv => ?_⟩
  · rw [State.reg_setReg_same, State.rand_of_step henv]
  · rw [State.reg_setReg_same, State.rand_of_nil henv]

end Sys2Proof.Machine
end

section
/-! SUPPORT. The register-to-register arithmetic and logic instructions (44_alu.md). -/

namespace Sys2Proof.Machine

/-- Settles O31: each meaning is one write of Vx, whose bits are those of the byte written (R182 to R184). -/
theorem logicCombinesBitwise : Obligations.LogicCombinesBitwise := by
  intro x y s
  refine ⟨⟨_, rfl, s.changesOnly_setReg x _, fun b _ => ?_⟩, ⟨_, rfl, s.changesOnly_setReg x _, fun b _ => ?_⟩,
    ⟨_, rfl, s.changesOnly_setReg x _, fun b _ => ?_⟩⟩
  · rw [State.reg_setReg_same, BitVec.getLsbD_or]
  · rw [State.reg_setReg_same, BitVec.getLsbD_and]
  · rw [State.reg_setReg_same, BitVec.getLsbD_xor]

/-- VF ends as the flag whatever register the result went to (R180). -/
theorem State.regF_writeResultThenFlag (s : State) (x : RegNum) (b : Byte) (c : Bool) :
    (s.writeResultThenFlag x b c).reg 0xF = flagByte c := by
  rw [State.reg_writeResultThenFlag]
  exact if_pos rfl

/-- Vx ends as the result unless it is VF (R180). -/
theorem State.regX_writeResultThenFlag (s : State) {x : RegNum} (b : Byte) (c : Bool) (hx : x ≠ 0xF) :
    (s.writeResultThenFlag x b c).reg x = b := by
  rw [State.reg_writeResultThenFlag, if_neg (show x ≠ regF from hx), if_pos rfl]

theorem flagByte_decide (p : Prop) [Decidable p] : flagByte (decide p) = if p then 0x01 else 0x00 := by
  simp [flagByte]

/-- Settles O32: the flag is computed from the old operands and written last (R185, R180). -/
theorem addRegAddsAndCarries : Obligations.AddRegAddsAndCarries := by
  intro x y s
  have hexec : exec (.addReg x y) s =
    .next (s.writeResultThenFlag x (s.reg x + s.reg y) (carryFlag (s.reg x) (s.reg y))) := rfl
  refine ⟨_, hexec, s.changesOnly_writeResultThenFlag x _ _, fun hx => ?_, ?_⟩
  · rw [s.regX_writeResultThenFlag _ _ hx, BitVec.toNat_add]
  · rw [s.regF_writeResultThenFlag, carryFlag, flagByte_decide]

theorem sub_toNat_mod (a b : Byte) : (a - b).toNat = (a.toNat + 256 - b.toNat) % 256 := by
  rw [BitVec.toNat_sub]
  have := b.isLt
  congr 1
  omega

/-- Settles O33: SUBN is SUB with the operands the other way round, in the difference and in the comparison (R186, R188). -/
theorem subtractionsFlagNoBorrow : Obligations.SubtractionsFlagNoBorrow := by
  intro x y s
  have effect (a b : Byte) : s.ChangesOnly (s.writeResultThenFlag x (a - b) (noBorrowFlag a b)) [.reg x, .reg 0xF] ∧
      (x ≠ 0xF → ((s.writeResultThenFlag x (a - b) (noBorrowFlag a b)).reg x).toNat = (a.toNat + 256 - b.toNat) % 256) ∧
      (s.writeResultThenFlag x (a - b) (noBorrowFlag a b)).reg 0xF = if a.toNat ≥ b.toNat then 0x01 else 0x00 := by
    refine ⟨s.changesOnly_writeResultThenFlag x _ _, fun hx => ?_, ?_⟩
    · rw [s.regX_writeResultThenFlag _ _ hx, sub_toNat_mod]
    · rw [s.regF_writeResultThenFlag, noBorrowFlag, flagByte_decide]
  exact ⟨⟨_, rfl, effect (s.reg x) (s.reg y)⟩, ⟨_, rfl, effect (s.reg y) (s.reg x)⟩⟩

theorem flagByte_toNat (c : Bool) : (flagByte c).toNat = c.toNat := by cases c <;> rfl

/-- Settles O34: the results and the bits shifted out are those of Vx alone (R187, R189, R99). -/
theorem shiftsReportTheBitOut : Obligations.ShiftsReportTheBitOut := by
  intro x y s
  have hlt := (s.reg x).isLt
  refine ⟨⟨_, rfl, s.changesOnly_writeResultThenFlag x _ _, fun hx => ?_, ?_⟩,
    ⟨_, rfl, s.changesOnly_writeResultThenFlag x _ _, fun hx => ?_, ?_⟩⟩
  · rw [s.regX_writeResultThenFlag _ _ hx, BitVec.toNat_ushiftRight, Nat.shiftRight_eq_div_pow, pow_one]
  · rw [s.regF_writeResultThenFlag, flagByte_toNat, lowBitFlag, BitVec.getLsbD, Nat.toNat_testBit, pow_zero, Nat.div_one]
  · rw [s.regX_writeResultThenFlag _ _ hx, BitVec.toNat_shiftLeft, Nat.shiftLeft_eq, pow_one]
  · rw [s.regF_writeResultThenFlag, flagByte_toNat, highBitFlag, BitVec.getLsbD, Nat.toNat_testBit]
    omega

end Sys2Proof.Machine
end

section
/-! SUPPORT. The control transfer instructions (41_control_transfer.md). -/

namespace Sys2Proof.Machine

/-- Settles O35: both meanings are the skip on their comparison (R144, R145, R140). -/
theorem skipsOnImmediate : Obligations.SkipsOnImmediate := by
  intro x kk s
  refine ⟨⟨_, rfl, ?_, s.changesOnly_skipIf _⟩, ⟨_, rfl, ?_, s.changesOnly_skipIf _⟩⟩
  · simp
  · by_cases h : s.reg x = kk <;> simp [h]

/-- Settles O36: both meanings are the skip on their comparison (R146, R147, R140). -/
theorem skipsOnRegister : Obligations.SkipsOnRegister := by
  intro x y s
  refine ⟨⟨_, rfl, ?_, s.changesOnly_skipIf _⟩, ⟨_, rfl, ?_, s.changesOnly_skipIf _⟩⟩
  · simp
  · by_cases h : s.reg x = s.reg y <;> simp [h]

/-- Settles O37: the target is at most 0xFF + 0xFFF, which 16 bits hold (R142, R148). -/
theorem jumpsLoadTheirTarget : Obligations.JumpsLoadTheirTarget := by
  intro nnn s
  refine ⟨⟨_, rfl, zextAddr_toNat nnn, s.changesOnly_setPc _⟩, ⟨_, rfl, ?_, s.changesOnly_setPc _⟩⟩
  have hv := (s.reg 0x0).isLt
  have hn := nnn.isLt
  rw [State.setPc_pc, BitVec.toNat_add, zextByte_toNat, zextAddr_toNat]
  omega

/-- Pushing changes the depth and the new cell only (10_state.md R28). -/
theorem State.changesOnly_push (s : State) (ret : Word) (h : s.sp.val < 16) :
    s.ChangesOnly (s.push ret h) [.stackCell ⟨s.sp.val, h⟩, .sp] := by
  intro p hp
  cases p with
  | sp => simp at hp
  | stackCell k =>
    have hk : k ≠ ⟨s.sp.val, h⟩ := by simpa using hp
    exact Vector.getElem_set_ne h k.isLt fun e => hk (Fin.ext e.symm)
  | _ => simp [State.Keeps, State.reg]

/-- Popping changes the depth only; the cell keeps its value (10_state.md R28; log 6). -/
theorem State.changesOnly_pop (s : State) : s.ChangesOnly s.pop [.sp] := by
  intro p hp
  cases p with
  | sp => simp at hp
  | _ => simp [State.Keeps, State.reg]

theorem exec_call_of_lt (nnn : Addr) {s : State} (h : s.sp.val < 16) :
    exec (.call nnn) s = .next ((s.push s.pc h).setPc (zextAddr nnn)) := dif_pos h

theorem exec_ret_of_pos {s : State} (h : 0 < s.sp.val) : exec .ret s = .next (s.pop.setPc (s.top h)) := dif_pos h

/-- The cell just pushed holds the return address (10_state.md R28). -/
theorem State.push_stack_get (s : State) (ret : Word) (h : s.sp.val < 16) :
    (s.push ret h).stack.get ⟨s.sp.val, h⟩ = ret := Vector.getElem_set_self ..

/-- Settles O38: below depth 16 the meaning is a push of the advanced PC and a jump (R143). -/
theorem callPushesTheNextAddress : Obligations.CallPushesTheNextAddress := by
  intro nnn s h
  exact ⟨_, exec_call_of_lt nnn h, zextAddr_toNat nnn, rfl, s.push_stack_get s.pc h,
    ((s.changesOnly_push s.pc h).trans (State.changesOnly_setPc _ _)).mono (by simp)⟩

/-- Settles O39: above depth 0 the meaning is a pop and a jump to the popped cell (R141). -/
theorem retPopsTheReturnAddress : Obligations.RetPopsTheReturnAddress := by
  intro s k hk
  have hpos : 0 < s.sp.val := by omega
  have htop : s.top hpos = s.stack.get k := by simp [State.top, hk, Vector.get_eq_getElem]
  exact ⟨_, exec_ret_of_pos hpos, htop, by simp [hk], s.changesOnly_pop.trans (State.changesOnly_setPc _ _)⟩

/-- An instruction that raises a fault records it with its own address and word, and changes nothing else (R241). -/
theorem exec_raises {i : Instr} {s : State} {kind : FaultKind} (h : exec i s = s.raiseFrom kind i) :
    ∃ t, exec i s = .next t ∧ t.Records kind (s.pc - 2) (encode i) ∧ s.ChangesOnly t [.faultRecord] :=
  ⟨_, h, ⟨rfl, rfl, rfl, rfl⟩, s.changesOnly_raise _ _ _⟩

/-- Settles O40: at depth 16 CALL, and at depth 0 RET, is nothing but the fault (R243, R244). -/
theorem stackFaultsLeaveTheStack : Obligations.StackFaultsLeaveTheStack := by
  intro nnn s
  exact ⟨fun hfull => exec_raises (dif_neg (by omega)), fun hempty => exec_raises (dif_neg (by omega))⟩

/-- Settles O41: RET pops the cell that CALL pushed, and of the moves of PC and of the depth only that cell is left (R141,
R143). -/
theorem returnUndoesCall : Obligations.ReturnUndoesCall := by
  intro nnn s h pc
  have hpos : 0 < (((s.push s.pc h).setPc (zextAddr nnn)).setPc pc).sp.val := Nat.succ_pos _
  have htop : State.top _ hpos = s.pc := s.push_stack_get s.pc h
  refine ⟨_, _, exec_call_of_lt nnn h, exec_ret_of_pos hpos, htop, fun p hp => ?_⟩
  cases p with
  | pc => exact htop
  | sp => rfl
  | stackCell k => exact s.changesOnly_push s.pc h (.stackCell k) (by simpa using hp)
  | _ => simp [State.Keeps, State.reg]

end Sys2Proof.Machine
end

section
/-! SUPPORT. The held keys (45_keypad.md). -/

namespace Sys2Proof.Machine

/-- Settles O45: both meanings are the skip on the held key, which the pending STEP's KEYS_HELD decides (R200 to R202). -/
theorem keySkipsAskTheHeldKeys : Obligations.KeySkipsAskTheHeldKeys := by
  intro x keys rand rest s henv
  have hheld : s.keyHeld (s.reg x) = decide ((s.reg x).toNat < 16 ∧ keys.getLsbD (s.reg x).toNat = true) := by
    simp [State.keyHeld, State.keysHeld_of_step henv]
  refine ⟨⟨_, rfl, s.changesOnly_skipIf _, ?_⟩, ⟨_, rfl, s.changesOnly_skipIf _, ?_⟩⟩
  · simp only [State.skipIf_pc, hheld, decide_eq_true_eq]
  · simp only [State.skipIf_pc, hheld, Bool.not_eq_true', decide_eq_false_iff_not, ite_not]

/-- Settles O46: the two skip on a condition and on its negation, whatever the held keys are (R202). -/
theorem keySkipsAreComplements : Obligations.KeySkipsAreComplements := by
  intro x s
  refine ⟨_, _, rfl, rfl, s.changesOnly_skipIf _, s.changesOnly_skipIf _, ?_⟩
  cases hheld : s.keyHeld (s.reg x) with
  | true => exact .inl ⟨by simp, by simp⟩
  | false => exact .inr ⟨by simp, by simp⟩

end Sys2Proof.Machine
end

section
/-! SUPPORT. The address register and the memory transfers (47_index_and_memory.md). -/

namespace Sys2Proof.Machine

/-- Settles O49: the meaning is one write of I by a 16-bit sum (R220). -/
theorem addIWrapsAt16Bits : Obligations.AddIWrapsAt16Bits := by
  intro x s
  have hsum : (s.i + zextByte (s.reg x)).toNat = (s.i.toNat + (s.reg x).toNat) % 65536 := by
    rw [BitVec.toNat_add, zextByte_toNat]
  exact ⟨_, rfl, hsum, s.changesOnly_setI _⟩

theorem exec_ldB_of_le (x : RegNum) {s : State} (h : s.i.toNat + 2 ≤ 4095) :
    exec (.ldB x) s = .next (s.store s.base (decimalDigits (s.reg x))) := by
  have hrange : s.accessOutOfRange 3 = false := State.accessOutOfRange_eq_false.mpr (by omega)
  simp [exec, execLdB, hrange]

theorem exec_ldMemVx_of_le {x : RegNum} {s : State} (h : s.i.toNat + x.toNat ≤ 4095) :
    exec (.ldMemVx x) s = .next (s.store s.base (s.regsUpTo x)) := by
  have hrange : s.accessOutOfRange (x.toNat + 1) = false := State.accessOutOfRange_eq_false.mpr (by omega)
  simp [exec, execLdMemVx, hrange]

theorem exec_ldVxMem_of_le {x : RegNum} {s : State} (h : s.i.toNat + x.toNat ≤ 4095) :
    exec (.ldVxMem x) s = .next (s.setRegsFrom0 (s.mem.readBlock s.base (x.toNat + 1))) := by
  have hrange : s.accessOutOfRange (x.toNat + 1) = false := State.accessOutOfRange_eq_false.mpr (by omega)
  simp [exec, execLdVxMem, hrange]

theorem getElem_decimalDigits_toNat (b : Byte) : ((decimalDigits b)[0]).toNat = b.toNat / 100 ∧
    ((decimalDigits b)[1]).toNat = b.toNat / 10 % 10 ∧ ((decimalDigits b)[2]).toNat = b.toNat % 10 := by
  have := b.isLt
  simp only [decimalDigits, List.getElem_cons_zero, List.getElem_cons_succ, BitVec.toNat_ofNat]
  omega

/-- Settles O51: the three bytes stored are the digits, and canonical memory reads them back (R222). -/
theorem ldBStoresDecimalDigits : Obligations.LdBStoresDecimalDigits := by
  intro x s hwf hi
  have hread (k : Nat) (hk : k < 3) :
      (s.mem.writeBlock s.base (decimalDigits (s.reg x))).read (s.base + k) = (decimalDigits (s.reg x))[k] :=
    Memory.read_writeBlock hwf (by simp [State.base, Config.memSize]; omega) hk
  obtain ⟨hhundreds, htens, hunits⟩ := getElem_decimalDigits_toNat (s.reg x)
  exact ⟨_, exec_ldB_of_le x hi, (congrArg BitVec.toNat (hread 0 (by simp))).trans hhundreds,
    (congrArg BitVec.toNat (hread 1 (by simp))).trans htens, (congrArg BitVec.toNat (hread 2 (by simp))).trans hunits,
    s.changesOnly_store s.base (decimalDigits (s.reg x))⟩

/-- Settles O52: the bytes stored are the registers in order, and canonical memory reads them back (R223). -/
theorem ldMemVxStoresRegisters : Obligations.LdMemVxStoresRegisters := by
  intro x s hwf hi
  have hlength := s.length_regsUpTo x
  have hframe := s.changesOnly_store s.base (s.regsUpTo x)
  rw [hlength] at hframe
  refine ⟨_, exec_ldMemVx_of_le hi, fun r hr => ?_, hframe⟩
  have hr' : r.toNat < (s.regsUpTo x).length := by omega
  have hread : (s.mem.writeBlock s.base (s.regsUpTo x)).read (s.base + r.toNat) = (s.regsUpTo x)[r.toNat] :=
    Memory.read_writeBlock hwf (by simp [State.base, Config.memSize]; omega) hr'
  exact hread.trans (s.getElem_regsUpTo x r hr')

/-- The transfer of LD_VX_MEM changes V0 to Vx only. -/
theorem State.changesOnly_setRegsFrom0 (s : State) (m : Memory) (a : Nat) (x : RegNum) :
    s.ChangesOnly (s.setRegsFrom0 (m.readBlock a (x.toNat + 1)))
      ((List.range (x.toNat + 1)).map (fun k => Part.reg (BitVec.ofNat 4 k))) := by
  intro p hp
  cases p with
  | reg r =>
    have hr : ¬ r.toNat ≤ x.toNat := fun h =>
      hp (List.mem_map.mpr ⟨r.toNat, List.mem_range.mpr (Nat.lt_succ_of_le h), by simp⟩)
    exact (s.reg_setRegsFrom0 m a x r).trans (if_neg hr)
  | _ => simp [State.Keeps]

/-- Settles O53: the register after the transfer is the byte at its offset, up to Vx and no further (R224). -/
theorem ldVxMemLoadsRegisters : Obligations.LdVxMemLoadsRegisters := by
  intro x s hi
  exact ⟨_, exec_ldVxMem_of_le hi, fun r hr => (s.reg_setRegsFrom0 s.mem s.base x r).trans (if_pos hr),
    s.changesOnly_setRegsFrom0 s.mem s.base x⟩

/-- Settles O54: the store leaves I alone, so the load reads the very bytes the store wrote (R224). -/
theorem storeThenLoadRestoresRegisters : Obligations.StoreThenLoadRestoresRegisters := by
  intro x s between hwf hi
  obtain ⟨t, hstore, hstored, hframe⟩ := ldMemVxStoresRegisters x s hwf hi
  have hti : t.i = s.i := hframe .i (by simp [bytesFrom])
  obtain ⟨u, hload, hloaded, -⟩ := ldVxMemLoadsRegisters x { t with v := between } (by simpa [hti] using hi)
  refine ⟨t, u, hstore, hload, fun r hr => ?_⟩
  calc u.reg r = t.mem.read (t.i.toNat + r.toNat) := hloaded r hr
    _ = s.reg r := by rw [hti, hstored r hr]

/-- Settles O55: the range check comes before any transfer, so the instruction is nothing but the fault (R225, R246). -/
theorem accessAboveMemoryFaults : Obligations.AccessAboveMemoryFaults := by
  intro x y n s
  have above {count : Nat} (h : 1 ≤ count ∧ s.i.toNat + count > 4096) : s.accessOutOfRange count = true :=
    State.accessOutOfRange_eq_true.mpr h
  exact ⟨fun hn hlast => exec_raises (if_pos (above ⟨hn, by omega⟩)), fun hlast => exec_raises (if_pos (above (by omega))),
    fun hlast => exec_raises (if_pos (above (by omega))), fun hlast => exec_raises (if_pos (above (by omega)))⟩

end Sys2Proof.Machine
end

section
/-! SUPPORT. DRW and the collision detector (43_display.md R171 to R174). -/

namespace Sys2Proof.Machine

/-! ### The display after a draw, row by row -/

/-- The display that DRW leaves, and whether a row collided (R172, R173). -/
def State.drawn (s : State) (x y : RegNum) (n : Nibble) : FrameBuffer × Bool :=
  drawRows (s.reg x) (s.reg y) 0 (s.mem.readBlock s.base n.toNat) s.fb false

/-- The state that DRW leaves when its sprite is inside memory. -/
def State.afterDraw (s : State) (x y : RegNum) (n : Nibble) : State :=
  (s.setDisplay (s.drawn x y n).1).setReg regF (flagByte (s.drawn x y n).2)

/-- The line of sprite row `p`: its byte of memory at column Vx (R171, R172). -/
def State.spriteLineAt (s : State) (x : RegNum) (p : Nat) : PixelRow :=
  spriteLine (s.mem.read (s.i.toNat + p)) (s.reg x)

theorem exec_drw_of_le (x y : RegNum) {n : Nibble} {s : State} (h : n.toNat = 0 ∨ s.i.toNat + n.toNat - 1 ≤ 4095) :
    exec (.drw x y n) s = .next (s.afterDraw x y n) := by
  have hrange : s.accessOutOfRange n.toNat = false := State.accessOutOfRange_eq_false.mpr (by omega)
  simp [exec, execDrw, hrange, State.afterDraw, State.drawn]

theorem spriteRow_eq_iff {vy : Byte} {p : Nat} {r : Fin 32} : spriteRow vy p = r ↔ r.val = (vy.toNat + p) % 32 := by
  rw [Fin.ext_iff, eq_comm]
  rfl

section
variable {s : State} {x y : RegNum} {n : Nibble}

theorem State.length_sprite_le (s : State) (n : Nibble) : (s.mem.readBlock s.base n.toNat).length ≤ 32 := by
  rw [Memory.length_readBlock]
  have := n.isLt
  omega

/-- No two of the at most 15 sprite rows land on one display row. -/
theorem spriteRow_inj {vy : Byte} {p q : Nat} (hp : p < n.toNat) (hq : q < n.toNat) (h : spriteRow vy p = spriteRow vy q) :
    p = q := by
  have hn := n.isLt
  obtain hlt | heq | hlt := lt_trichotomy p q
  · exact absurd h.symm (spriteRow_injective hlt (by omega))
  · exact heq
  · exact absurd h (spriteRow_injective hlt (by omega))

theorem State.drawn_row {p : Nat} (hp : p < n.toNat) :
    (s.drawn x y n).1.get (spriteRow (s.reg y) p) = s.fb.get (spriteRow (s.reg y) p) ^^^ s.spriteLineAt x p := by
  have hrow := drawRows_get_inside (s.reg x) (s.reg y) (s.mem.readBlock s.base n.toNat) 0 s.fb false (s.length_sprite_le n) p
    (by rwa [Memory.length_readBlock])
  rw [Nat.zero_add, Memory.getElem_readBlock] at hrow
  exact hrow

theorem State.drawn_row_outside {r : Fin 32} (hr : ∀ p < n.toNat, spriteRow (s.reg y) p ≠ r) :
    (s.drawn x y n).1.get r = s.fb.get r := by
  refine drawRows_get_outside _ _ _ _ _ _ r fun k hk => ?_
  rw [Memory.length_readBlock] at hk
  rw [Nat.zero_add]
  exact hr k hk

theorem State.drawn_hit :
    (s.drawn x y n).2 = true ↔ ∃ p < n.toNat, s.fb.get (spriteRow (s.reg y) p) &&& s.spriteLineAt x p ≠ 0 := by
  rw [State.drawn, drawRows_hit _ _ _ _ _ _ (s.length_sprite_le n)]
  simp only [Bool.false_eq_true, false_or, Nat.zero_add, Memory.getElem_readBlock, Memory.length_readBlock, exists_prop]
  rfl

/-! ### The pixels after a draw -/

/-- In the display row of sprite row `p` the sprite's set pixels are those of its line. -/
theorem State.spritePixel_row {p : Nat} (hp : p < n.toNat) (c : Fin 64) :
    s.SpritePixel x y n (spriteRow (s.reg y) p) c ↔ (s.spriteLineAt x p).getLsbD (63 - c.val) = true := by
  rw [State.spriteLineAt, spriteLine_column]
  constructor
  · rintro ⟨q, j, hq, hj, hrow, hcol, hbit⟩
    obtain rfl := spriteRow_inj hq hp (spriteRow_eq_iff.mpr hrow)
    exact ⟨j, hj, hcol, hbit⟩
  · rintro ⟨j, hj, hcol, hbit⟩
    exact ⟨p, j, hp, hj, rfl, hcol, hbit⟩

theorem State.SpritePixel.exists_row {r : Fin 32} {c : Fin 64} (h : s.SpritePixel x y n r c) :
    ∃ p < n.toNat, spriteRow (s.reg y) p = r := by
  obtain ⟨p, -, hp, -, hrow, -⟩ := h
  exact ⟨p, hp, spriteRow_eq_iff.mpr hrow⟩

/-- A pixel in the display row of sprite row `p` is toggled by its bit of the line (R172). -/
theorem State.pixel_afterDraw {p : Nat} (hp : p < n.toNat) (c : Fin 64) :
    (s.afterDraw x y n).pixel (spriteRow (s.reg y) p) c =
      (s.pixel (spriteRow (s.reg y) p) c ^^ (s.spriteLineAt x p).getLsbD (63 - c.val)) := by
  simp only [State.pixel, State.afterDraw, State.setReg_fb, State.setDisplay_fb, State.drawn_row hp, BitVec.getLsbD_xor]

theorem State.pixel_afterDraw_ne_iff (r : Fin 32) (c : Fin 64) :
    (s.afterDraw x y n).pixel r c ≠ s.pixel r c ↔ s.SpritePixel x y n r c := by
  by_cases hr : ∃ p < n.toNat, spriteRow (s.reg y) p = r
  · obtain ⟨p, hp, rfl⟩ := hr
    rw [State.pixel_afterDraw hp, State.spritePixel_row hp]
    cases s.pixel (spriteRow (s.reg y) p) c <;> simp
  · have hrow : (s.drawn x y n).1.get r = s.fb.get r := State.drawn_row_outside fun p hp h => hr ⟨p, hp, h⟩
    have hsame : (s.afterDraw x y n).pixel r c = s.pixel r c := congrArg (BitVec.getLsbD · (63 - c.val)) hrow
    exact iff_of_false (not_not_intro hsame) fun h => hr h.exists_row

/-- A display row has a pixel lit unless it is zero. -/
theorem pixelRow_ne_zero_iff {row : PixelRow} : row ≠ 0 ↔ ∃ c : Fin 64, row.getLsbD (63 - c.val) = true := by
  constructor
  · intro h
    by_contra hall
    refine h (BitVec.eq_of_getLsbD_eq fun b hb => ?_)
    have hdark := not_exists.mp hall ⟨63 - b, by omega⟩
    simpa [show 63 - (63 - b) = b by omega] using hdark
  · rintro ⟨c, hc⟩ rfl
    simp at hc

/-- The detector reports a collision exactly when a set pixel was hit (R173). -/
theorem State.drawn_hit_iff_pixel :
    (s.drawn x y n).2 = true ↔ ∃ r c, s.pixel r c = true ∧ s.SpritePixel x y n r c := by
  have row (p : Nat) (hp : p < n.toNat) : s.fb.get (spriteRow (s.reg y) p) &&& s.spriteLineAt x p ≠ 0 ↔
      ∃ c, s.pixel (spriteRow (s.reg y) p) c = true ∧ s.SpritePixel x y n (spriteRow (s.reg y) p) c := by
    simp only [pixelRow_ne_zero_iff, BitVec.getLsbD_and, Bool.and_eq_true, State.spritePixel_row hp, State.pixel]
  rw [State.drawn_hit]
  constructor
  · rintro ⟨p, hp, hne⟩
    exact ⟨_, (row p hp).mp hne⟩
  · rintro ⟨r, c, hset, hsprite⟩
    obtain ⟨p, hp, rfl⟩ := hsprite.exists_row
    exact ⟨p, hp, (row p hp).mpr ⟨c, hset, hsprite⟩⟩

theorem flagByte_eq_one_iff {c : Bool} : flagByte c = 0x01 ↔ c = true := by cases c <;> decide

theorem State.changesOnly_afterDraw : s.ChangesOnly (s.afterDraw x y n) (.reg 0xF :: allRows) :=
  (s.changesOnly_setDisplay _).trans (State.changesOnly_setReg _ regF _)

end

/-- Settles O43: each sprite row toggles its own display row by its line, whose lit columns are the sprite's set pixels, and the
detector is the OR over the rows (R171 to R173). -/
theorem drwTogglesTheSpritesPixels : Obligations.DrwTogglesTheSpritesPixels := by
  intro x y n s hi
  have hflag : (s.afterDraw x y n).reg 0xF = flagByte (s.drawn x y n).2 := State.reg_setReg_same ..
  refine ⟨_, exec_drw_of_le x y hi, State.pixel_afterDraw_ne_iff, ?_, ?_, State.changesOnly_afterDraw⟩
  · exact hflag ▸ flagByte_eq _
  · rw [hflag, flagByte_eq_one_iff, State.drawn_hit_iff_pixel]

/-! ### Drawing twice, and the wraparounds (R174) -/

/-- Two display rows whose pixels agree are equal. -/
theorem State.row_eq_of_pixel {s t : State} {r : Fin 32} (h : ∀ c, t.pixel r c = s.pixel r c) : t.fb.get r = s.fb.get r := by
  refine BitVec.eq_of_getLsbD_eq fun b hb => ?_
  have hbit := h ⟨63 - b, by omega⟩
  rwa [State.pixel, State.pixel, show 63 - (63 - b) = b by omega] at hbit

/-- The sprite's set pixels are read from Vx, Vy, I and memory alone. -/
theorem State.spritePixel_congr {s t : State} {x y : RegNum} (n : Nibble) (hx : t.reg x = s.reg x) (hy : t.reg y = s.reg y)
    (hi : t.i = s.i) (hmem : ∀ a, t.mem.read a = s.mem.read a) (r : Fin 32) (c : Fin 64) :
    t.SpritePixel x y n r c ↔ s.SpritePixel x y n r c := by
  simp only [State.SpritePixel, hx, hy, hi, hmem]

/-- Two draws of one sprite toggle each pixel twice; the second collides where the first has set a pixel. -/
theorem draw_twice (x y : RegNum) (n : Nibble) (s : State) (hx : x ≠ 0xF) (hy : y ≠ 0xF)
    (hi : n.toNat = 0 ∨ s.i.toNat + n.toNat - 1 ≤ 4095) :
    ∃ t u, exec (.drw x y n) s = .next t ∧ exec (.drw x y n) t = .next u ∧ (∀ r, u.fb.get r = s.fb.get r) ∧
      (u.reg 0xF = 0x01 ↔ ∃ r c, s.pixel r c = false ∧ t.pixel r c = true) := by
  obtain ⟨t, hdraw, htoggle, -, -, hframe⟩ := drwTogglesTheSpritesPixels x y n s hi
  have hti : t.i = s.i := hframe .i (by simp [allRows])
  obtain ⟨u, hagain, hback, -, hhit, -⟩ := drwTogglesTheSpritesPixels x y n t (by rwa [hti])
  have hreg {r : RegNum} (hr : r ≠ 0xF) : t.reg r = s.reg r := hframe (.reg r) (by simpa [allRows] using hr)
  have hsprite (r : Fin 32) (c : Fin 64) : t.SpritePixel x y n r c ↔ t.pixel r c ≠ s.pixel r c :=
    (State.spritePixel_congr n (hreg hx) (hreg hy) hti (fun a => hframe (.byte a) (by simp [allRows])) r c).trans
      (htoggle r c).symm
  refine ⟨t, u, hdraw, hagain, fun r => State.row_eq_of_pixel fun c => ?_, ?_⟩
  · have htwice := (hback r c).trans (hsprite r c)
    revert htwice
    cases u.pixel r c <;> cases t.pixel r c <;> cases s.pixel r c <;> simp
  · rw [hhit]
    refine exists_congr fun r => exists_congr fun c => ?_
    rw [hsprite]
    cases t.pixel r c <;> cases s.pixel r c <;> simp

/-- At column 60 a line has the left half of the byte at the right edge and the right half at the left edge (R174). -/
theorem spriteLine_at_60 (b : Byte) (c : Fin 64) : (spriteLine b 60).getLsbD (63 - c.val) =
    if 60 ≤ c.val then b.getLsbD (7 - (c.val - 60)) else if c.val < 4 then b.getLsbD (3 - c.val) else false := by
  have h60 : (60 : Byte).toNat = 60 := rfl
  have hc := c.isLt
  rw [Bool.eq_iff_iff, spriteLine_column, h60]
  split
  · constructor
    · rintro ⟨j, hj, hcol, hbit⟩
      rwa [show c.val - 60 = j by omega]
    · exact fun hbit => ⟨c.val - 60, by omega, by omega, hbit⟩
  · split
    · constructor
      · rintro ⟨j, hj, hcol, hbit⟩
        rwa [show 3 - c.val = 7 - j by omega]
      · exact fun hbit => ⟨c.val + 4, by omega, by omega, by rwa [show 7 - (c.val + 4) = 3 - c.val by omega]⟩
    · refine iff_of_false ?_ (by simp)
      rintro ⟨j, hj, hcol, -⟩
      omega

/-- A draw toggles the display rows of the sprite rows by their lines, and the other rows stay. -/
theorem draw_rows (x y : RegNum) (n : Nibble) (s : State) (hi : n.toNat = 0 ∨ s.i.toNat + n.toNat - 1 ≤ 4095) :
    ∃ t, exec (.drw x y n) s = .next t ∧
      (∀ r : Fin 32, (∀ p < n.toNat, r.val ≠ ((s.reg y).toNat + p) % 32) → t.fb.get r = s.fb.get r) ∧
      (∀ p < n.toNat, ∀ r : Fin 32, r.val = ((s.reg y).toNat + p) % 32 → ∀ c : Fin 64,
        t.pixel r c = (s.pixel r c ^^ (s.spriteLineAt x p).getLsbD (63 - c.val))) := by
  refine ⟨_, exec_drw_of_le x y hi, fun r hr => ?_, fun p hp r hr c => ?_⟩
  · exact State.drawn_row_outside fun p hp h => hr p hp (spriteRow_eq_iff.mp h)
  · obtain rfl := spriteRow_eq_iff.mpr hr
    exact State.pixel_afterDraw hp c

/-- Settles O44: the second draw toggles what the first has toggled; the wraparounds are the line at column 60 and the display
rows from 30 on (R174). -/
theorem drawTwiceAndWraparound : Obligations.DrawTwiceAndWraparound := by
  refine ⟨draw_twice, fun x y n s hx hi => ?_, fun x y s hy hi => ?_⟩
  · obtain ⟨t, hdraw, hstay, htoggle⟩ := draw_rows x y n s hi
    refine ⟨t, hdraw, hstay, fun p hp r hr c => ?_⟩
    rw [htoggle p hp r hr c, State.spriteLineAt, hx, spriteLine_at_60]
  · have hfive : (5 : Nibble).toNat = 5 := rfl
    have hthirty : (s.reg y).toNat = 30 := by rw [hy]; rfl
    obtain ⟨t, hdraw, hstay, htoggle⟩ := draw_rows x y 5 s (.inr (by omega))
    rw [hfive, hthirty] at hstay htoggle
    refine ⟨t, hdraw, fun r hr => hstay r fun p hp h => hr ?_, fun k r hr c => htoggle k k.isLt r hr c⟩
    interval_cases p <;> simp [h]

end Sys2Proof.Machine
end
